-- ==== Sys2Proof/Word.lean ====
section
/-! DEFINITION. The word types of the block: bytes, nibbles, command words (R10, R70). -/

namespace Sys2Proof

/-- A byte: 8 bits (R10). -/
abbrev Byte := BitVec 8

/-- A nibble: 4 bits (R10). -/
abbrev Nibble := BitVec 4

/-- A 16-bit word: a command word (R70), the `RESULT` register (R25), a CRC (R102). -/
abbrev Word := BitVec 16

/-- A 9-bit offset or length (R9, R51). -/
abbrev Offset := BitVec 9

end Sys2Proof
end

