-- ==== Sys2Proof/Config.lean ====
section
/-! DEFINITION. What is fixed for a run: the parameters of R8 (stated by the source), those of R9 (left open, with the
spec's chosen value or none), and the constant start-marker ROM (R24). Configuration is not state (R35). -/

namespace Sys2Proof.Config

/-- `MAX_SC_LEN` (R8). -/
abbrev maxScLen : Nat := 63
/-- `MAX_DE_LEN` (R8). -/
abbrev maxDeLen : Nat := 127
/-- `MAX_HHDUC_LEN` (R8, spec/90_conflicts.md C1). -/
abbrev maxHhducLen : Nat := 256
/-- `MAX_BQR_IN_LEN` (R8). -/
abbrev maxBqrInLen : Nat := 256
/-- `BQR_OVERHEAD` (R8). -/
abbrev bqrOverhead : Nat := 5
/-- `CONTROL_BYTE` (R8). -/
def controlByte : Byte := 0x01#8
/-- `LS_FLAGS` (R8). -/
def lsFlags : Byte := 0xC0#8
/-- `LDE_FLAGS` (R8). -/
def ldeFlags : Byte := 0x40#8
/-- `'D'`, first byte of `BQR_MAGIC` and of the mask (R8; its ASCII value is the spec's, D25; log 21). -/
def charD : Byte := 0x44#8
/-- `'K'`, second byte of `BQR_MAGIC` and of the mask (R8, D25; log 21). -/
def charK : Byte := 0x4B#8
/-- `BQR_AMS`, `'N'` (R8, D25; log 21). -/
def charN : Byte := 0x4E#8
/-- `CRC_POLY`, reflected form (R8, R102). -/
def crcPoly : Word := 0xA001#16
/-- The CRC's initial register (R8, R102). -/
def crcInit : Word := 0x0000#16
/-- `START_ROM` (R24): the constant start marker; it has no reset and no command writes it (log 8). -/
def startRom : List Byte := [0x0F#8, 0xFF#8]
/-- `FRAMES_PER_BYTE` (R8): two clock phases of two nibble phases. -/
abbrev framesPerByte : Nat := 4

/-- `LUHN_COVERS_LDE` (R9, R140, D5, C5): the spec's chosen value. -/
def luhnCoversLde : Bool := false

/-- `DSUM_WIDTH` (R9, D4): the spec's chosen value. -/
abbrev dsumWidth : Nat := 32

/-- `EXIT_FAILURE_CODE` (R9, R229, D21): open, no value here (log 11). -/
opaque exitFailureCode : Nat

/-- `TICK_PERIOD` (R9, D20): open, no value here; no rule of the model's step reads it (log 11). -/
opaque tickPeriod : Nat

/-- The parameters of R9. They are fixed for a run and are no state: the step relation `stepAt` takes them, and no command reads
or writes them (R35). -/
structure Params where
  /-- `LUHN_COVERS_LDE`: whether `LDE` bytes enter the Luhn-style sum (R140). -/
  luhnCoversLde : Bool
  /-- `DSUM_WIDTH`: how many bits the operand of `DSUM` has (R75). -/
  dsumWidth : Nat
  /-- `TICK_PERIOD`, in any unit of time (R247). -/
  tickPeriod : Nat
  /-- `EXIT_FAILURE_CODE` (R229). -/
  exitFailureCode : Nat
deriving DecidableEq, Repr

/-- The spec's choice (R9, D4, D5, D20, D21): `exec` and `step` are the machine at these parameters (log 9, log 10). -/
def chosen : Params where
  luhnCoversLde := luhnCoversLde
  dsumWidth := dsumWidth
  tickPeriod := tickPeriod
  exitFailureCode := exitFailureCode

/-- How many bytes of `PORT` carry a `DSUM` integer of a width: `ceil(DSUM_WIDTH / 8)` (R75). -/
abbrev dsumBytes (width : Nat) : Nat := (width + 7) / 8

end Sys2Proof.Config
end

