-- ==== Sys2Proof/Syntax.lean ====
section
/-! DEFINITION. The eight commands (R71), each with the operand it takes (R72, R75). The numbers of the encoding stand in
Decode.lean alone; a constructor carries what the command computes on. -/

namespace Sys2Proof

/-- Where a byte-string operand comes from: the `SRC` field (R72), with the bytes themselves when they come on `PORT`. -/
inductive Source where
  /-- `SRC = 0`: the byte string delivered on `PORT` (R75). -/
  | port (bytes : List Byte)
  /-- `SRC = 1`: the whole `HHDUC` payload. -/
  | hhduc
  /-- `SRC = 2`: the whole `BQR` payload. -/
  | bqr
deriving DecidableEq, Repr

/-- The commands: one constructor per row of spec/opcode_table.json. -/
inductive Instr where
  /-- `DSUM` (R107): the unsigned integer, of whatever width the parameter gives it (R75). -/
  | dsum (n : Nat)
  /-- `NXOR` (R108). -/
  | nxor (src : Source)
  /-- `CRC16` (R109). -/
  | crc16 (src : Source)
  /-- `ENC_HHDUC` (R143): start code and three data elements, an empty one being absent. -/
  | encHhduc (sc de1 de2 de3 : List Byte)
  /-- `ENC_BQR` (R167). -/
  | encBqr (src : Source)
  /-- `FLK_START` (R186). -/
  | flkStart
  /-- `FLK_TICK` (R187). -/
  | flkTick
  /-- `FLK_CANCEL` (R188). -/
  | flkCancel
deriving DecidableEq, Repr

/-- The agents that issue commands (R16). -/
inductive Agent where
  | host
  | timer
  | cancellation
deriving DecidableEq, Repr

/-- The agent that issues a command (R71, "issued by"). The command fixes it, so a host-driven event has no move (log 2). -/
def Instr.issuer : Instr → Agent
  | .dsum _ => .host
  | .nxor _ => .host
  | .crc16 _ => .host
  | .encHhduc _ _ _ _ => .host
  | .encBqr _ => .host
  | .flkStart => .host
  | .flkTick => .timer
  | .flkCancel => .cancellation

end Sys2Proof
end

