-- ==== Sys2Proof/WellFormed.lean ====
section
/-! DEFINITION. Which terms of `Instr` are commands the interface can deliver: a `PORT` string's length fits its 16-bit length
word, a `DSUM` integer fits its width (R75), and `ENC_BQR` does not take the `BQR` buffer (R72). -/

namespace Sys2Proof

/-- A byte string `PORT` can carry: its length fits the 16-bit length word (R75). -/
def portString (s : List Byte) : Bool := decide (s.length < 65536)

/-- A source whose `PORT` string, if any, can be delivered (R75). -/
def Source.wf : Source → Bool
  | .port s => portString s
  | .hhduc => true
  | .bqr => true

/-- The commands the interface can deliver where `DSUM_WIDTH` is `width` (R72, R75). -/
def Instr.wfAt (width : Nat) : Instr → Bool
  | .dsum n => decide (n < 2 ^ width)
  | .nxor src => src.wf
  | .crc16 src => src.wf
  | .encHhduc sc de1 de2 de3 => portString sc && portString de1 && portString de2 && portString de3
  | .encBqr src => src.wf && !decide (src = .bqr)
  | .flkStart => true
  | .flkTick => true
  | .flkCancel => true

/-- The commands the interface can deliver at the chosen width. -/
def Instr.wf (i : Instr) : Bool := i.wfAt Config.dsumWidth

end Sys2Proof
end

