-- ==== Sys2Proof/Decode.lean ====
section
/-! DEFINITION. The command word `CMD16` (R70 to R74, R77), the framing of operands on `PORT` (R75), the decoder, total on any
word and any bytes, and the encoder. -/

namespace Sys2Proof

/-! ### The command word -/

/-- The assigned operation codes (R71). -/
inductive Opcode where
  | dsum
  | nxor
  | crc16
  | encHhduc
  | encBqr
  | flkStart
  | flkTick
  | flkCancel
deriving DecidableEq, Repr

/-- The values of `SRC` that some operation code gives a meaning (R72). -/
inductive SrcSel where
  | port
  | hhduc
  | bqr
deriving DecidableEq, Repr

/-- `OPC`, bits 15:8 (R70). -/
def wordOpc (w : Word) : BitVec 8 := w.extractLsb' 8 8

/-- `SRC`, bits 7:6 (R70). -/
def wordSrc (w : Word) : BitVec 2 := w.extractLsb' 6 2

/-- `RSV`, bits 5:0 (R70, R73). -/
def wordRsv (w : Word) : BitVec 6 := w.extractLsb' 0 6

/-- The number of an operation code (R71). -/
def Opcode.code : Opcode → BitVec 8
  | .dsum => 0x01#8
  | .nxor => 0x02#8
  | .crc16 => 0x03#8
  | .encHhduc => 0x10#8
  | .encBqr => 0x11#8
  | .flkStart => 0x20#8
  | .flkTick => 0x21#8
  | .flkCancel => 0x22#8

/-- The assigned operation codes, in the order of R71. -/
def Opcode.all : List Opcode := [.dsum, .nxor, .crc16, .encHhduc, .encBqr, .flkStart, .flkTick, .flkCancel]

/-- The operation code of a number, `none` where it is unassigned (R74). -/
def Opcode.ofCode (c : BitVec 8) : Option Opcode := Opcode.all.find? fun o => o.code == c

/-- The number of a source selector (R72). -/
def SrcSel.code : SrcSel → BitVec 2
  | .port => 0#2
  | .hhduc => 1#2
  | .bqr => 2#2

/-- The `SRC` values that are not reserved, per operation code (R72). -/
def Opcode.sources : Opcode → List SrcSel
  | .dsum => [.port]
  | .nxor => [.port, .hhduc, .bqr]
  | .crc16 => [.port, .hhduc, .bqr]
  | .encHhduc => [.port]
  | .encBqr => [.port, .hhduc]
  | .flkStart => [.port]
  | .flkTick => [.port]
  | .flkCancel => [.port]

/-- The legal selector of a number under an operation code, `none` where it is reserved (R72, R74). -/
def Opcode.sourceOf (o : Opcode) (c : BitVec 2) : Option SrcSel := o.sources.find? fun x => x.code == c

/-- The operation code and selector of a command word; `none` is "invalid" (R74). -/
def decodeWord (w : Word) : Option (Opcode × SrcSel) :=
  if wordRsv w = 0#6 then
    match Opcode.ofCode (wordOpc w) with
    | none => none
    | some o =>
      match o.sourceOf (wordSrc w) with
      | none => none
      | some x => some (o, x)
  else none

/-- The command word of an operation code and a selector (R70), with `RSV` 0 (R73). -/
def encodeWord (o : Opcode) (x : SrcSel) : Word := o.code ++ x.code ++ 0#6

/-- The 13 legal command words (R77), as the spec writes them. -/
def legalWords : List Word :=
  [0x0100#16, 0x0200#16, 0x0240#16, 0x0280#16, 0x0300#16, 0x0340#16, 0x0380#16, 0x1000#16, 0x1100#16, 0x1140#16,
   0x2000#16, 0x2100#16, 0x2200#16]

/-! ### Operands on `PORT` -/

/-- A number read from bytes, most significant byte first (R75). -/
def beNat (bs : List Byte) : Nat := bs.foldl (fun acc b => acc * 256 + b.toNat) 0

/-- The `n` low bytes of a number, most significant byte first (R75). -/
def beBytes : Nat → Nat → List Byte
  | 0, _ => []
  | n + 1, v => BitVec.ofNat 8 (v / 256 ^ n) :: beBytes n v

/-- Take `n` bytes off `PORT`, `none` where fewer are there. -/
def takeBytes (n : Nat) (p : List Byte) : Option (List Byte × List Byte) :=
  if n ≤ p.length then some (p.take n, p.drop n) else none

/-- Take one byte string off `PORT`: its 16-bit length, then its bytes (R75). -/
def takeString (p : List Byte) : Option (List Byte × List Byte) :=
  match takeBytes 2 p with
  | none => none
  | some (len, rest) => takeBytes (beNat len) rest

/-- Take the integer of `DSUM` off `PORT` (R75). -/
def takeInteger (width : Nat) (p : List Byte) : Option (Nat × List Byte) :=
  (takeBytes (Config.dsumBytes width) p).map fun r => (beNat r.1, r.2)

/-- Take the byte-string operand a selector names: from `PORT`, or nothing at all for an internal buffer (R72, R75). -/
def takeSource (x : SrcSel) (p : List Byte) : Option (Source × List Byte) :=
  match x with
  | .port => (takeString p).map fun r => (.port r.1, r.2)
  | .hhduc => some (.hhduc, p)
  | .bqr => some (.bqr, p)

/-- Take the four fields of `ENC_HHDUC`, in order (R75). -/
def takeFields (p : List Byte) : Option (Instr × List Byte) :=
  match takeString p with
  | none => none
  | some (sc, p1) =>
    match takeString p1 with
    | none => none
    | some (de1, p2) =>
      match takeString p2 with
      | none => none
      | some (de2, p3) => (takeString p3).map fun r => (.encHhduc sc de1 de2 r.1, r.2)

/-- Take an operation's whole operand off `PORT`, answering the command and the bytes left over (R75). -/
def takeOperand (width : Nat) (o : Opcode) (x : SrcSel) (p : List Byte) : Option (Instr × List Byte) :=
  match o with
  | .dsum => (takeInteger width p).map fun r => (.dsum r.1, r.2)
  | .nxor => (takeSource x p).map fun r => (.nxor r.1, r.2)
  | .crc16 => (takeSource x p).map fun r => (.crc16 r.1, r.2)
  | .encHhduc => takeFields p
  | .encBqr => (takeSource x p).map fun r => (.encBqr r.1, r.2)
  | .flkStart => some (.flkStart, p)
  | .flkTick => some (.flkTick, p)
  | .flkCancel => some (.flkCancel, p)

/-- What a word and its `PORT` bytes are. -/
inductive Decoded where
  /-- A command with its complete operand. -/
  | command (i : Instr)
  /-- A reserved command word (R74), whatever came beside it on `PORT`. -/
  | reserved
  /-- `PORT` ends before the operand does: no move (R215; log 4). -/
  | operandShort
  /-- `PORT` goes on after the operand: no move (R215; log 4). -/
  | operandLong
  /-- The integer of `DSUM` is not below `2^DSUM_WIDTH`, which can come where the width is no whole number of bytes: no move
  (R75, R215; log 4). -/
  | operandRange
deriving DecidableEq, Repr

/-- Decode a command word with the `PORT` bytes that arrive with it, where `DSUM_WIDTH` is `width`. Total (R74). -/
def decodeAt (width : Nat) (w : Word) (port : List Byte) : Decoded :=
  match decodeWord w with
  | none => .reserved
  | some (o, x) =>
    match takeOperand width o x port with
    | none => .operandShort
    | some (i, rest) =>
      if rest.isEmpty then
        if i.wfAt width then .command i else .operandRange
      else .operandLong

/-- Decode at the chosen width. -/
def decode (w : Word) (port : List Byte) : Decoded := decodeAt Config.dsumWidth w port

/-! ### The encoder -/

/-- A byte string as `PORT` carries it: 16-bit length, most significant byte first, then the bytes (R75). -/
def frameString (s : List Byte) : List Byte := beBytes 2 s.length ++ s

/-- The selector of a source (R72). -/
def Source.sel : Source → SrcSel
  | .port _ => .port
  | .hhduc => .hhduc
  | .bqr => .bqr

/-- The `PORT` bytes of a source (R75). -/
def Source.framed : Source → List Byte
  | .port s => frameString s
  | .hhduc => []
  | .bqr => []

/-- The command word of an instruction (R77). -/
def Instr.word : Instr → Word
  | .dsum _ => encodeWord .dsum .port
  | .nxor src => encodeWord .nxor src.sel
  | .crc16 src => encodeWord .crc16 src.sel
  | .encHhduc _ _ _ _ => encodeWord .encHhduc .port
  | .encBqr src => encodeWord .encBqr src.sel
  | .flkStart => encodeWord .flkStart .port
  | .flkTick => encodeWord .flkTick .port
  | .flkCancel => encodeWord .flkCancel .port

/-- The `PORT` bytes of an instruction, where `DSUM_WIDTH` is `width` (R75). -/
def Instr.operandBytes (width : Nat) : Instr → List Byte
  | .dsum n => beBytes (Config.dsumBytes width) n
  | .nxor src => src.framed
  | .crc16 src => src.framed
  | .encHhduc sc de1 de2 de3 => frameString sc ++ (frameString de1 ++ (frameString de2 ++ frameString de3))
  | .encBqr src => src.framed
  | .flkStart => []
  | .flkTick => []
  | .flkCancel => []

/-- The word and the `PORT` bytes of an instruction, where `DSUM_WIDTH` is `width`. -/
def encodeAt (width : Nat) (i : Instr) : Word × List Byte := (i.word, i.operandBytes width)

/-- Encode at the chosen width. -/
def encode (i : Instr) : Word × List Byte := encodeAt Config.dsumWidth i

/-! ### The host's question about a row of the opcode table -/

/-- How many `PORT` bytes complete a word whose operand bytes are all 0: an integer of zeros, or strings of length 0 (R75). -/
def zeroOperandLength (w : Word) : Nat :=
  match decodeWord w with
  | some (.dsum, _) => Config.dsumBytes Config.dsumWidth
  | some (.encHhduc, _) => 8
  | some (.nxor, .port) => 2
  | some (.crc16, .port) => 2
  | some (.encBqr, .port) => 2
  | _ => 0

/-- The all-zero operand that completes a word. -/
def zeroOperand (w : Word) : List Byte := List.replicate (zeroOperandLength w) 0#8

/-- The command word of a row of the opcode table: its `nbits` low bits. -/
def tableWord (nbits w : Nat) : Word := BitVec.ofNat 16 (w % 2 ^ nbits)

/-- What the decoder reads from an instruction whose word is `w`, its operand all zeros. -/
def decodeTableWord (nbits w : Nat) : Option Instr :=
  match decode (tableWord nbits w) (zeroOperand (tableWord nbits w)) with
  | .command i => some i
  | .reserved => none
  | .operandShort => none
  | .operandLong => none
  | .operandRange => none

end Sys2Proof
end

