-- ==== Sys2Proof/Machine/State.lean ====
section
/-! DEFINITION. The block's state (R20 to R34) as plain data, and the state after reset (R40). -/

namespace Sys2Proof.Machine

/-- A buffer space (R50): cells (address, byte), cell `k` at address `k` (`Memory.wf`); an empty list is an empty buffer.
An address that is not listed names no byte (R51): it has no value, and a read of it records `F_UNWRITTEN` (log 7). -/
abbrev Memory := List Host.Cell

/-- `UNIT_STATE` (R27). -/
inductive UnitState where
  | ready
  | aborted
deriving DecidableEq, Repr

/-- `TX_STATE` (R27); its value 3 is "never held". -/
inductive TxState where
  | idle
  | running
  | stopped
deriving DecidableEq, Repr

/-- A frame `(clock, nibble)` (R33, R184). -/
structure Frame where
  clock : Bool
  nibble : Nibble
deriving DecidableEq, Repr

/-- What `FAULT` records (R34, R217). -/
inductive FaultMark where
  /-- `F_UNWRITTEN`: a read of an empty buffer, an unwritten register, or at or beyond a buffer's length. -/
  | unwritten
  /-- `F_HHDUC_BUSY`: `ENC_HHDUC` while the transmitter runs. -/
  | hhducBusy
  /-- `F_TX_BUSY`: `FLK_START` while the transmitter runs. -/
  | txBusy
deriving DecidableEq, Repr

/-- What `REFUSED` records (R34, R218). -/
inductive RefusalMark where
  /-- `RF_INVALID_CMD`: a reserved command word. -/
  | invalidCmd
  /-- `RF_AFTER_END`: a host command after the end of run. -/
  | afterEnd
deriving DecidableEq, Repr

/-- The error kinds (R210). -/
inductive ErrorKind where
  | validation
  | capacity
deriving DecidableEq, Repr

/-- The error causes (R26, R211). -/
inductive ErrorCause where
  | scEmpty
  | scTooLong
  | de1TooLong
  | de2TooLong
  | de3TooLong
  | hhducTooLarge
  | bqrInputTooLarge
deriving DecidableEq, Repr

/-- What the host may read (R215, "may touch"): registers, the status view, the frame port, and one byte of a buffer. -/
inductive HostRead where
  | result
  | err
  | status
  | lastFrame
  | hhducByte (off : Offset)
  | bqrByte (off : Offset)
deriving DecidableEq, Repr

/-- What a host read gives back. -/
inductive HostValue where
  | word (v : Word)
  | byte (v : Byte)
  | frame (v : Option Frame)
deriving DecidableEq, Repr

/-- One thing an agent puts on the block's interface (R16, R215, R240). -/
inductive Arrival where
  /-- A command or event: its word, with the `PORT` bytes that come with it as one atomic input (R70, R75, D38). -/
  | command (w : Word) (port : List Byte)
  /-- A host read (R215). -/
  | read (r : HostRead)
  /-- The reset input (R240). -/
  | reset
deriving DecidableEq, Repr

/-- The architectural state (R20), and two fields of the model's own, which stand for the interface: `arrivals` and
`readback`. `HHDUC_LEN`, `HHDUC_VALID`, `BQR_LEN`, `BQR_VALID` and `STATUS` are views (Flags.lean). -/
structure State where
  /-- `HHDUC` (R22). -/
  hhduc : Memory
  /-- `BQR` (R23). -/
  bqr : Memory
  /-- `RESULT` (R25). -/
  result : Word
  /-- `RESULT_VALID` (R25). -/
  resultValid : Bool
  /-- `ERR` (R26). -/
  err : Byte
  /-- `UNIT_STATE` (R27). -/
  unitState : UnitState
  /-- `TX_STATE` (R27). -/
  txState : TxState
  /-- `TX_LEN` (R28). -/
  txLen : Offset
  /-- `BYTE_INDEX` (R29). -/
  byteIndex : Offset
  /-- `LOW_HALF_PENDING` (R30). -/
  lowHalfPending : Bool
  /-- `CLOCK_HIGH` (R31). -/
  clockHigh : Bool
  /-- `CANCEL_PENDING` (R32). -/
  cancelPending : Bool
  /-- `LAST_FRAME` (R33); `none` is the spec's "no frame". -/
  lastFrame : Option Frame
  /-- `FRAMES`, oldest first (R33). -/
  frames : List Frame
  /-- `FAULT` (R34). -/
  fault : Option FaultMark
  /-- `REFUSED` (R34). -/
  refused : Option RefusalMark
  /-- The model's own: what the agents have put on the interface and the block has not taken, oldest first. Any list is a
  possible interleaving of the agents (R16, R220; log 1). -/
  arrivals : List Arrival
  /-- The model's own: what the host's last read gave back, `none` where there was none or it gave no value (log 15). -/
  readback : Option HostValue
deriving DecidableEq, Repr

/-- The state after reset (R40). `result` is 0 where the spec has "no value" (log 5); `arrivals` and `readback` are the
model's own (log 1, log 15). -/
def State.reset : State where
  hhduc := []
  bqr := []
  result := 0#16
  resultValid := false
  err := 0x00#8
  unitState := .ready
  txState := .idle
  txLen := 0#9
  byteIndex := 0#9
  lowHalfPending := true
  clockHigh := true
  cancelPending := false
  lastFrame := none
  frames := []
  fault := none
  refused := none
  arrivals := []
  readback := none

/-- Why the machine stops. The spec's own model faults and refusals (R217, R218) are marks in `State`, with a next state, and
are not here. Every reason is raised by `runCommand` (Machine/Interface.lean) alone, never by a meaning; all are SAFE: the
spec gives the block no move there (R215, D38), and the model goes no further (log 4). -/
inductive Fault where
  /-- A command word arrived with fewer `PORT` bytes than its operand has. -/
  | operandShort
  /-- A command word arrived with more `PORT` bytes than its operand has. -/
  | operandLong
  /-- The integer of `DSUM` is not below `2^DSUM_WIDTH`; it cannot happen at the chosen width of 32. -/
  | operandRange
deriving DecidableEq, Repr

/-- Why an instruction has no meaning. -/
inductive Refusal where
  /-- An arm of `exec` whose instruction has no meaning yet; raised by `exec` alone, SAFE; no arm raises it now. -/
  | notModelled (mnemonic : String)
deriving DecidableEq, Repr

end Sys2Proof.Machine
end

