-- ==== Sys2Proof/Machine/Flags.lean ====
section
/-! DEFINITION. The views of the state: buffer lengths and valid bits (R22, R23), the fields of `ERR` (R26, R211), the codes of
the run states (R27), `STATUS` (R37) and the end of run (R223). -/

namespace Sys2Proof.Machine

/-- `HHDUC_LEN` (R22): the payload's length, 0 when empty. -/
def State.hhducLen (s : State) : Offset := BitVec.ofNat 9 s.hhduc.length

/-- `HHDUC_VALID` (R22): a payload is held. -/
def State.hhducValid (s : State) : Bool := !s.hhduc.isEmpty

/-- `BQR_LEN` (R23). -/
def State.bqrLen (s : State) : Offset := BitVec.ofNat 9 s.bqr.length

/-- `BQR_VALID` (R23). -/
def State.bqrValid (s : State) : Bool := !s.bqr.isEmpty

/-- The kind of a cause (R26, R211). -/
def ErrorCause.kind : ErrorCause → ErrorKind
  | .scEmpty => .validation
  | .scTooLong => .validation
  | .de1TooLong => .validation
  | .de2TooLong => .validation
  | .de3TooLong => .validation
  | .hhducTooLarge => .capacity
  | .bqrInputTooLarge => .capacity

/-- `KIND` codes (R26). -/
def ErrorKind.code : ErrorKind → Byte
  | .validation => 1#8
  | .capacity => 2#8

/-- `CAUSE` codes (R26). -/
def ErrorCause.code : ErrorCause → Byte
  | .scEmpty => 1#8
  | .scTooLong => 2#8
  | .de1TooLong => 3#8
  | .de2TooLong => 4#8
  | .de3TooLong => 5#8
  | .hhducTooLarge => 6#8
  | .bqrInputTooLarge => 7#8

/-- `ERR = (CAUSE << 4) | KIND` (R211). -/
def ErrorCause.err (c : ErrorCause) : Byte := (c.code <<< 4) ||| c.kind.code

/-- The field `KIND` of `ERR`, bits 1:0 (R26). -/
def errKind (e : Byte) : BitVec 2 := e.extractLsb' 0 2

/-- The field `CAUSE` of `ERR`, bits 6:4 (R26). -/
def errCause (e : Byte) : BitVec 3 := e.extractLsb' 4 3

/-- The code of `TX_STATE` (R27, R37). -/
def TxState.code : TxState → BitVec 2
  | .idle => 0#2
  | .running => 1#2
  | .stopped => 2#2

/-- The end of run as commands and `STATUS` see it (R15, R37): `UNIT_STATE = ABORTED` or `TX_STATE = STOPPED`. -/
def State.ended (s : State) : Bool := decide (s.unitState = .aborted) || decide (s.txState = .stopped)

/-- `STATUS` (R37), from bit 7 down: END, CP, RV, BV, HV, TX, ABORTED. -/
def State.status (s : State) : Byte :=
  BitVec.ofBool s.ended ++ BitVec.ofBool s.cancelPending ++ BitVec.ofBool s.resultValid ++ BitVec.ofBool s.bqrValid ++
    BitVec.ofBool s.hhducValid ++ s.txState.code ++ BitVec.ofBool (decide (s.unitState = .aborted))

end Sys2Proof.Machine
end

