-- ==== Sys2Proof/Machine/Ops.lean ====
section
/-! DEFINITION. The named operations over bytes, buffers and registers: nibbles (R10), `MemRead` (R52), replacing a payload
(R22, R23), the result register (R25), recording a model fault or refusal (R217, R218), the error path (R213), the reset input
(R240) and the gates every command passes (R219). -/

namespace Sys2Proof.Machine

/-! ### Nibbles -/

/-- The high nibble `b >> 4`, bits 7:4 (R10). -/
def hiNibble (b : Byte) : Nibble := b.extractLsb' 4 4

/-- The low nibble `b & 0xF`, bits 3:0 (R10). -/
def loNibble (b : Byte) : Nibble := b.extractLsb' 0 4

/-! ### Buffers -/

/-- The canonical form of a buffer: cell `k` stands at address `k` (R50). -/
abbrev Memory.wf (m : Memory) : Prop := m.map Prod.fst = List.range m.length

/-- The cells of a byte string laid out from address `k` up. -/
def cellsFrom (k : Nat) : List Byte → Memory
  | [] => []
  | b :: bs => (k, b) :: cellsFrom (k + 1) bs

/-- The buffer that holds a byte string at addresses 0 .. len-1 (R50). -/
def Memory.ofBytes (bs : List Byte) : Memory := cellsFrom 0 bs

/-- The byte string a buffer holds, in increasing offset order (R53). -/
def Memory.bytes (m : Memory) : List Byte := m.map Prod.snd

/-- The byte at an address, `none` where the address names no byte (R51). -/
def Memory.read (m : Memory) (a : Nat) : Option Byte := m.lookup a

/-- The addressed byte spaces (R50). `PORT` is a stream and comes with its command. -/
inductive Space where
  | hhduc
  | bqr
  | startRom
deriving DecidableEq, Repr

/-- What a space holds (R24, R50). -/
def State.space (s : State) : Space → Memory
  | .hhduc => s.hhduc
  | .bqr => s.bqr
  | .startRom => Memory.ofBytes Config.startRom

/-- `MemRead(space, off, 1)` (R52); `none` is the read that records `F_UNWRITTEN`. -/
def memRead (sp : Space) (off : Nat) (s : State) : Option Byte := (s.space sp).read off

/-- Replace the whole `HHDUC` payload (R22). -/
def writeHhduc (payload : List Byte) (s : State) : State := { s with hhduc := Memory.ofBytes payload }

/-- Replace the whole `BQR` payload (R23). -/
def writeBqr (payload : List Byte) (s : State) : State := { s with bqr := Memory.ofBytes payload }

/-! ### Registers -/

/-- `RESULT <- v; RESULT_VALID <- 1` (R25). -/
def writeResult (v : Word) (s : State) : State := { s with result := v, resultValid := true }

/-- `emit (c, n)` (R33). -/
def emit (f : Frame) (s : State) : State := { s with frames := s.frames ++ [f], lastFrame := some f }

/-! ### Marks, errors, reset -/

/-- Record a model fault: `FAULT <- F_x` if `FAULT` is none, and nothing else (R217). -/
def recordFault (m : FaultMark) (s : State) : State := { s with fault := s.fault.or (some m) }

/-- Record a refusal: `REFUSED <- RF_x` if `REFUSED` is none, and nothing else (R218). -/
def recordRefusal (m : RefusalMark) (s : State) : State := { s with refused := s.refused.or (some m) }

/-- Taking an error, the block's trap entry (R213): `ERR` and `UNIT_STATE` are written, nothing else. There is no handler and
no return (R214); the reset input alone leaves `ABORTED`. -/
def raise (c : ErrorCause) (s : State) : State := { s with err := c.err, unitState := .aborted }

/-- The reset input (R240): every piece of state takes its value of R40 at once. What the agents put on the interface later
is still to come (log 17). -/
def resetInput (s : State) : State := { State.reset with arrivals := s.arrivals }

/-! ### Gates -/

/-- A `FAULT` already set stops everything (R217, R219): the command has no effect. -/
def unlessFaulted (body : State → State) (s : State) : State :=
  match s.fault with
  | none => body s
  | some _ => s

/-- A host command (R219): nothing when faulted, `RF_AFTER_END` after the end of run, else its body. -/
def hostCommand (body : State → State) (s : State) : State :=
  unlessFaulted (fun t => if t.ended then recordRefusal .afterEnd t else body t) s

/-- A reserved command word (R74): `RF_INVALID_CMD` and nothing else; it is the first check after `FAULT` (R219). -/
def reservedWord (s : State) : State := unlessFaulted (recordRefusal .invalidCmd) s

end Sys2Proof.Machine
end

