-- ==== Sys2Proof/Machine/Operands.lean ====
section
/-! DEFINITION. The byte-string operand of `NXOR`, `CRC16` and `ENC_BQR` (R72). -/

namespace Sys2Proof.Machine

/-- The bytes of a source: those of `PORT`, or the whole payload of a buffer; `none` where that buffer is empty (R72). -/
def sourceBytes (src : Source) (s : State) : Option (List Byte) :=
  match src with
  | .port bytes => some bytes
  | .hhduc => if s.hhducValid then some (Memory.bytes s.hhduc) else none
  | .bqr => if s.bqrValid then some (Memory.bytes s.bqr) else none

/-- Go on with the bytes of a source, or record `F_UNWRITTEN` where the named buffer is empty (R72, R217). -/
def withSource (src : Source) (body : List Byte → State → State) (s : State) : State :=
  match sourceBytes src s with
  | none => recordFault .unwritten s
  | some bytes => body bytes s

end Sys2Proof.Machine
end

