-- ==== Sys2Proof/Machine/Checksum.lean ====
section
/-! DEFINITION. The checksum primitives (R100 to R106) and the commands that expose them (R107 to R109). -/

namespace Sys2Proof.Machine

/-! ### The functions -/

/-- The loop of `digitSum` (R100), at most `fuel` digits. -/
def digitSumLoop : Nat → Nat → Nat
  | 0, _ => 0
  | fuel + 1, n => if n = 0 then 0 else n % 10 + digitSumLoop fuel (n / 10)

/-- `digitSum` (R100): the decimal digits of `n` added once. `n` steps are enough for every digit. -/
def digitSum (n : Nat) : Nat := digitSumLoop n n

/-- `nibbleXor` (R101). -/
def nibbleXor (s : List Byte) : Nibble := s.foldl (fun x b => x ^^^ hiNibble b ^^^ loNibble b) 0#4

/-- One bit of the CRC loop (R103). -/
def crcBit (crc : Word) : Word :=
  if crc.getLsbD 0 then (crc >>> 1) ^^^ Config.crcPoly else crc >>> 1

/-- `n` bits of the CRC loop (R103). -/
def crcBits : Nat → Word → Word
  | 0, crc => crc
  | n + 1, crc => crcBits n (crcBit crc)

/-- One byte of the CRC loop (R103). -/
def crcByte (crc : Word) (b : Byte) : Word := crcBits 8 (crc ^^^ b.setWidth 16)

/-- `crc16Arc` (R102, R103). -/
def crc16Arc (s : List Byte) : Word := s.foldl crcByte Config.crcInit

/-- `crcHi = crc[15:8]` (R104). -/
def crcHi (crc : Word) : Byte := crc.extractLsb' 8 8

/-- `crcLo = crc[7:0]` (R104). -/
def crcLo (crc : Word) : Byte := crc.extractLsb' 0 8

/-- `luhnTerm` (R105). -/
def luhnTerm (b : Byte) : Nat := (hiNibble b).toNat + digitSum (2 * (loNibble b).toNat)

/-- The Luhn-style sum of a byte string: the sum of its terms (R140). -/
def luhnSum (s : List Byte) : Nat := (s.map luhnTerm).sum

/-- `luhnNibble` (R106). -/
def luhnNibble (sum : Nat) : Nibble := BitVec.ofNat 4 ((10 - sum % 10) % 10)

/-! ### The commands -/

/-- `DSUM` (R107). -/
def execDsum (n : Nat) (s : State) : Host.Outcome State Fault Refusal :=
  .next (hostCommand (writeResult (BitVec.ofNat 16 (digitSum n))) s)

/-- `NXOR` (R108). -/
def execNxor (src : Source) (s : State) : Host.Outcome State Fault Refusal :=
  .next (hostCommand (withSource src fun bytes => writeResult ((nibbleXor bytes).setWidth 16)) s)

/-- `CRC16` (R109). -/
def execCrc16 (src : Source) (s : State) : Host.Outcome State Fault Refusal :=
  .next (hostCommand (withSource src fun bytes => writeResult (crc16Arc bytes)) s)

end Sys2Proof.Machine
end

