-- ==== Sys2Proof/Machine/Bqr.lean ====
section
/-! DEFINITION. The BQR encoder (R160 to R166), `ENC_BQR` (R167), and the receiver's check outside the block (R168). -/

namespace Sys2Proof.Machine

/-- The mask byte of an offset from 2 up (R164): `'D'` at an even offset-from-2, `'K'` at an odd one. -/
def maskByte (i : Nat) : Byte := if (i - 2) % 2 = 0 then Config.charD else Config.charK

/-- Mask a byte at an offset (R164): offsets 0 and 1 are left untouched. -/
def maskAt (i : Nat) (b : Byte) : Byte := if i < 2 then b else b ^^^ maskByte i

/-- Mask a byte string that starts at offset `i`. -/
def maskFrom : Nat → List Byte → List Byte
  | _, [] => []
  | i, b :: bs => maskAt i b :: maskFrom (i + 1) bs

/-- `maskDK` (R164). -/
def maskDK (x : List Byte) : List Byte := maskFrom 0 x

/-- The bytes the CRC covers (R161, R162): magic, flag and input, unmasked. -/
def bqrHead (h : List Byte) : List Byte := [Config.charD, Config.charK, Config.charN] ++ h

/-- The payload before the mask (R161 to R163): the CRC follows, high byte first. -/
def bqrPre (h : List Byte) : List Byte :=
  bqrHead h ++ [crcHi (crc16Arc (bqrHead h)), crcLo (crc16Arc (bqrHead h))]

/-- `encodeBQR` (R160 to R164). -/
def encodeBqr (h : List Byte) : Except ErrorCause (List Byte) :=
  if h.length > Config.maxBqrInLen then .error .bqrInputTooLarge else .ok (maskDK (bqrPre h))

/-- What the encoder's outcome does (R167): the error path, or the payload replaces `BQR`. -/
def storeBqr (r : Except ErrorCause (List Byte)) (s : State) : State :=
  match r with
  | .error c => raise c s
  | .ok payload => writeBqr payload s

/-- `ENC_BQR` (R167). `SRC = 2` is a reserved word (R72, R74) and is treated as one (log 14). -/
def execEncBqr (src : Source) (s : State) : Host.Outcome State Fault Refusal :=
  .next (if src = .bqr then reservedWord s
    else hostCommand (withSource src fun bytes => storeBqr (encodeBqr bytes)) s)

/-- `checkBQR` (R168), the receiver's side, outside the block: unmask, check magic, flag and CRC, and give the payload. -/
def checkBqr (q : List Byte) : Bool × List Byte :=
  let p := maskDK q
  let covered := p.take (q.length - 2)
  (decide (p.take 3 = [Config.charD, Config.charK, Config.charN]) &&
    decide (p.drop (q.length - 2) = [crcHi (crc16Arc covered), crcLo (crc16Arc covered)]),
   covered.drop 3)

end Sys2Proof.Machine
end

