-- ==== Sys2Proof/Machine/Flicker.lean ====
section
/-! DEFINITION. The flicker transmitter: the tick transition (R180 to R185) and `FLK_START`, `FLK_TICK`, `FLK_CANCEL`
(R186 to R188). -/

namespace Sys2Proof.Machine

/-- `stream(i)` (R180): the start marker, then the HHDuc bytes; `none` where `HHDUC` has no such byte. -/
def streamByte (i : Nat) (s : State) : Option Byte :=
  if i < 2 then memRead .startRom i s else memRead .hhduc (i - 2) s

/-- The frame of the current byte (R183 step 2, R184): the clock before the tick, and the half that is pending. -/
def currentFrame (cur : Byte) (s : State) : Frame :=
  { clock := s.clockHigh, nibble := if s.lowHalfPending then loNibble cur else hiNibble cur }

/-- `BYTE_INDEX` after a whole byte (R183 step 4): the next one, or 0 past the last HHDuc byte. -/
def nextIndex (s : State) : Offset :=
  if s.byteIndex.toNat + 1 = s.txLen.toNat + 2 then 0#9 else BitVec.ofNat 9 (s.byteIndex.toNat + 1)

/-- Steps 3 and 4 of the tick (R183). -/
def advanceCursor (s : State) : State :=
  if s.clockHigh then { s with clockHigh := false }
  else if s.lowHalfPending then { s with clockHigh := true, lowHalfPending := false }
  else { s with clockHigh := true, lowHalfPending := true, byteIndex := nextIndex s }

/-- `tick()` (R183). A byte that `HHDUC` does not hold is a read of R52, which records `F_UNWRITTEN` and does nothing else; it
never happens in a state of the invariant (R187; log 20). -/
def tick (s : State) : State :=
  match streamByte s.byteIndex.toNat s with
  | none => recordFault .unwritten s
  | some cur => advanceCursor (emit (currentFrame cur s) s)

/-- Load the transmitter (R186): its length and the initial cursor (R182). -/
def loadCursor (s : State) : State :=
  { s with txLen := s.hhducLen, byteIndex := 0#9, lowHalfPending := true, clockHigh := true }

/-- `FLK_START` past the end-of-run check (R186): `F_TX_BUSY`, then `F_UNWRITTEN`, then the start, which a latched
cancellation turns into a stop with no frame. -/
def startBody (s : State) : State :=
  if s.txState = .running then recordFault .txBusy s
  else if s.hhducValid then { loadCursor s with txState := if s.cancelPending then .stopped else .running }
  else recordFault .unwritten s

/-- `FLK_START` (R186). -/
def execFlkStart (s : State) : Host.Outcome State Fault Refusal := .next (hostCommand startBody s)

/-- `FLK_TICK` (R187): one transition while RUNNING and READY with no fault, else no effect. -/
def execFlkTick (s : State) : Host.Outcome State Fault Refusal :=
  .next (if s.txState = .running ∧ s.unitState = .ready ∧ s.fault = none then tick s else s)

/-- The cancellation event (R188): no effect after the end of run; else latch it, and stop a RUNNING transmitter. -/
def cancel (s : State) : State :=
  if s.ended then s
  else { s with cancelPending := true, txState := if s.txState = .running then .stopped else s.txState }

/-- `FLK_CANCEL` (R188). -/
def execFlkCancel (s : State) : Host.Outcome State Fault Refusal := .next (unlessFaulted cancel s)

end Sys2Proof.Machine
end

