-- ==== Sys2Proof/Machine/Hhduc.lean ====
section
/-! DEFINITION. The HHDuc encoder (R130 to R142) and `ENC_HHDUC` (R143). -/

namespace Sys2Proof.Machine

/-- What a data element adds to the size (R132): nothing when absent, else its `LDE` byte and its bytes. -/
def elementSize (de : List Byte) : Nat := if de.length = 0 then 0 else 1 + de.length

/-- The payload size `S` (R132). -/
def hhducSize (sc de1 de2 de3 : List Byte) : Nat :=
  4 + sc.length + elementSize de1 + elementSize de2 + elementSize de3

/-- The checks in the order of R134 (R131, R133): the first that fails decides the error, `none` when all pass. -/
def hhducCheck (sc de1 de2 de3 : List Byte) : Option ErrorCause :=
  if sc.length = 0 then some .scEmpty
  else if sc.length > Config.maxScLen then some .scTooLong
  else if de1.length > Config.maxDeLen then some .de1TooLong
  else if de2.length > Config.maxDeLen then some .de2TooLong
  else if de3.length > Config.maxDeLen then some .de3TooLong
  else if hhducSize sc de1 de2 de3 > Config.maxHhducLen then some .hhducTooLarge
  else none

/-- `LDE` of a present element (R139): its length OR-ed with the flag, literally (R144). -/
def ldeByte (de : List Byte) : Byte := BitVec.ofNat 8 de.length ||| Config.ldeFlags

/-- The bytes of a data element (R139): none when absent. -/
def elementBytes (de : List Byte) : List Byte := if de.length = 0 then [] else ldeByte de :: de

/-- What a data element adds to the Luhn sum (R140). -/
def elementLuhn (coversLde : Bool) (de : List Byte) : Nat :=
  if de.length = 0 then 0 else (if coversLde then luhnTerm (ldeByte de) else 0) + luhnSum de

/-- The Luhn-style sum of a payload (R140), for either value of `LUHN_COVERS_LDE`. -/
def hhducLuhn (coversLde : Bool) (sc de1 de2 de3 : List Byte) : Nat :=
  luhnTerm Config.controlByte + luhnSum sc + elementLuhn coversLde de1 + elementLuhn coversLde de2 +
    elementLuhn coversLde de3

/-- Every byte before the checksum (R135 to R139). -/
def hhducBody (sc de1 de2 de3 : List Byte) : List Byte :=
  [BitVec.ofNat 8 (hhducSize sc de1 de2 de3 - 1), BitVec.ofNat 8 sc.length ||| Config.lsFlags, Config.controlByte] ++ sc ++
    elementBytes de1 ++ elementBytes de2 ++ elementBytes de3

/-- The checksum byte (R141, R142): the Luhn nibble high, the XOR nibble of the body low. -/
def hhducChecksum (coversLde : Bool) (sc de1 de2 de3 : List Byte) : Byte :=
  luhnNibble (hhducLuhn coversLde sc de1 de2 de3) ++ nibbleXor (hhducBody sc de1 de2 de3)

/-- The payload (R57). -/
def hhducPayload (coversLde : Bool) (sc de1 de2 de3 : List Byte) : List Byte :=
  hhducBody sc de1 de2 de3 ++ [hhducChecksum coversLde sc de1 de2 de3]

/-- `encodeHHDuc` (R130 to R142), for either value of `LUHN_COVERS_LDE`. -/
def encodeHhduc (coversLde : Bool) (sc de1 de2 de3 : List Byte) : Except ErrorCause (List Byte) :=
  match hhducCheck sc de1 de2 de3 with
  | some c => .error c
  | none => .ok (hhducPayload coversLde sc de1 de2 de3)

/-- What the encoder's outcome does (R143): the error path, or the payload replaces `HHDUC`. -/
def storeHhduc (r : Except ErrorCause (List Byte)) (s : State) : State :=
  match r with
  | .error c => raise c s
  | .ok payload => writeHhduc payload s

/-- `ENC_HHDUC` past the end-of-run check (R143), for either value of `LUHN_COVERS_LDE`: `F_HHDUC_BUSY` while the transmitter
runs, else encode. -/
def encHhducBody (coversLde : Bool) (sc de1 de2 de3 : List Byte) (s : State) : State :=
  if s.txState = .running then recordFault .hhducBusy s
  else storeHhduc (encodeHhduc coversLde sc de1 de2 de3) s

/-- `ENC_HHDUC` (R143), for either value of `LUHN_COVERS_LDE` (R35). -/
def encHhducAt (coversLde : Bool) (sc de1 de2 de3 : List Byte) (s : State) : Host.Outcome State Fault Refusal :=
  .next (hostCommand (encHhducBody coversLde sc de1 de2 de3) s)

/-- `ENC_HHDUC` (R143) at the chosen value of `LUHN_COVERS_LDE` (log 9). -/
def execEncHhduc (sc de1 de2 de3 : List Byte) (s : State) : Host.Outcome State Fault Refusal :=
  encHhducAt Config.luhnCoversLde sc de1 de2 de3 s

end Sys2Proof.Machine
end

