-- ==== Sys2Proof/Machine/Dispatch.lean ====
section
/-! DEFINITION. One arm per command: the meaning each one calls. -/

namespace Sys2Proof.Machine

open Sys2Proof

/-- The effect of a command on the state. -/
def exec (i : Instr) (s : State) : Host.Outcome State Fault Refusal :=
  match i with
  | .dsum n => Sys2Proof.Machine.execDsum n s
  | .nxor src => Sys2Proof.Machine.execNxor src s
  | .crc16 src => Sys2Proof.Machine.execCrc16 src s
  | .encHhduc sc de1 de2 de3 => Sys2Proof.Machine.execEncHhduc sc de1 de2 de3 s
  | .encBqr src => Sys2Proof.Machine.execEncBqr src s
  | .flkStart => Sys2Proof.Machine.execFlkStart s
  | .flkTick => Sys2Proof.Machine.execFlkTick s
  | .flkCancel => Sys2Proof.Machine.execFlkCancel s

end Sys2Proof.Machine
end

