-- ==== Sys2Proof/Machine/Interface.lean ====
section
/-! DEFINITION. The step relation under its parameters (R35), and the block's interface: what it does with the oldest thing an
agent put there (R59, R215, R240). -/

namespace Sys2Proof.Machine

/-- The effect of a command under the parameters of R9 (R35). `LUHN_COVERS_LDE` is the only one a meaning depends on; `exec` is
this at the chosen parameters. -/
def execAt (p : Config.Params) (i : Instr) (s : State) : Host.Outcome State Fault Refusal :=
  match i with
  | .dsum n => execDsum n s
  | .nxor src => execNxor src s
  | .crc16 src => execCrc16 src s
  | .encHhduc sc de1 de2 de3 => encHhducAt p.luhnCoversLde sc de1 de2 de3 s
  | .encBqr src => execEncBqr src s
  | .flkStart => execFlkStart s
  | .flkTick => execFlkTick s
  | .flkCancel => execFlkCancel s

/-- What a host read gives back (R37, R52, R215); `none` is a read of an unwritten register or of an address that names no
byte (R25, R52, R217). `LAST_FRAME` before the first frame holds "no frame", which is a value (R33; log 16). -/
def hostValue (r : HostRead) (s : State) : Option HostValue :=
  match r with
  | .result => if s.resultValid then some (.word s.result) else none
  | .err => some (.byte s.err)
  | .status => some (.byte s.status)
  | .lastFrame => some (.frame s.lastFrame)
  | .hhducByte off => (memRead .hhduc off.toNat s).map .byte
  | .bqrByte off => (memRead .bqr off.toNat s).map .byte

/-- A host read: no side effect on the block (R52, R62), but for the `F_UNWRITTEN` of one that names nothing (R217). A set
`FAULT` leaves reads as they are (log 13). -/
def hostRead (r : HostRead) (s : State) : State :=
  match hostValue r s with
  | some v => { s with readback := some v }
  | none => recordFault .unwritten { s with readback := none }

/-- A command word with its `PORT` bytes (R70, R74, R215, R219). With `FAULT` set nothing arrives to any effect (R217). -/
def runCommand (p : Config.Params) (w : Word) (port : List Byte) (s : State) : Host.Outcome State Fault Refusal :=
  match s.fault with
  | some _ => .next s
  | none =>
    match decodeAt p.dsumWidth w port with
    | .command i => execAt p i s
    | .reserved => .next (reservedWord s)
    | .operandShort => .fault .operandShort
    | .operandLong => .fault .operandLong
    | .operandRange => .fault .operandRange

/-- What one arrival does. -/
def runArrival (p : Config.Params) (a : Arrival) (s : State) : Host.Outcome State Fault Refusal :=
  match a with
  | .command w port => runCommand p w port s
  | .read r => .next (hostRead r s)
  | .reset => .next (resetInput s)

/-- One step under the parameters of R9 (R35): take the oldest arrival and let it act, one atomic effect (R56, R59); with none
the block waits (R228, R240; log 3). -/
def stepAt (p : Config.Params) (s : State) : Host.Outcome State Fault Refusal :=
  match s.arrivals with
  | [] => .next s
  | a :: rest => runArrival p a { s with arrivals := rest }

/-- Put a command in front of everything that has not been taken yet. -/
def deliverFirst (w : Word) (port : List Byte) (s : State) : State :=
  { s with arrivals := .command w port :: s.arrivals }

end Sys2Proof.Machine
end

