-- ==== Sys2Proof/Machine/Step.lean ====
section
/-! DEFINITION. One step of the block, and placing a command where the next step takes it. -/

namespace Sys2Proof.Machine

/-- One step: one arrival, one atomic effect (R56, R59), at the chosen parameters (R9). -/
def step (s : State) : Host.Outcome State Fault Refusal := stepAt Config.chosen s

/-- The state with the command word of a row of the opcode table, its operand all zeros, delivered first (log 1). -/
def State.withFetchWord (s : State) (nbits w : Nat) : State :=
  deliverFirst (tableWord nbits w) (zeroOperand (tableWord nbits w)) s

end Sys2Proof.Machine
end

