-- ==== Sys2Proof/Safety.lean ====
section
/-! DEFINITION. What counts as a safe run: the end of a run and its exit status (R223, R229), the host's duties (R215, R243), the
launch and fairness premises (R216), the invariant of R41 with the facts of R25 to R33 it leans on, and the stream a transmission must have sent (R192). -/

namespace Sys2Proof.Safety

open Sys2Proof.Machine

/-! ### The end of a run -/

/-- No model fault and no refusal is recorded (R216 `no_fault`, `no_refusal`). -/
abbrev clean (s : State) : Prop := s.fault = none ∧ s.refused = none

/-- A run that ended aborted (R223). A state with a mark set is no end. -/
abbrev aborted (s : State) : Prop := s.unitState = .aborted ∧ clean s

/-- A run that ended stopped (R223), which is the successful end. A state with a mark set is no end. -/
abbrev stopped (s : State) : Prop := s.txState = .stopped ∧ s.unitState = .ready ∧ clean s

/-- The status the host process ends with where the run ended in this state (R223, R229): the failure code after an error, 0
after a cancellation, none in a state that is neither end. -/
def exitStatus (p : Config.Params) (s : State) : Option Nat :=
  if aborted s then some p.exitFailureCode else if stopped s then some 0 else none

/-- The state in which the run under way ends, if it does within `n` steps: the first one with an end of run (R15). A reset
before it begins another run (R215). What the host does to a block whose run has ended is later than its end, as in the programs
P2 and P3 (log 19). -/
def runEnd (p : Config.Params) : Nat → State → Option State
  | 0, s => if s.ended then some s else none
  | n + 1, s =>
    if s.ended then some s
    else if s.arrivals.head? = some .reset then none
    else
      match stepAt p s with
      | .next t => runEnd p n t
      | .fault _ => none
      | .refused _ => none

/-- The exit status of the run under way, if it ends within `n` steps (R223, R229). -/
def runExitStatus (p : Config.Params) (n : Nat) (s : State) : Option Nat := (runEnd p n s).bind (exitStatus p)

/-! ### When a command has its effect -/

/-- The state admits host commands (R219): no fault recorded, and the run has not ended. -/
abbrev runs (s : State) : Prop := s.fault = none ∧ s.unitState = .ready ∧ s.txState ≠ .stopped

/-- A source delivers a byte string (R72): the `PORT` bytes, or the whole payload of a buffer that holds one. -/
def delivers (src : Source) (bytes : List Byte) (s : State) : Prop :=
  match src with
  | .port p => bytes = p
  | .hhduc => s.hhduc ≠ [] ∧ bytes = Memory.bytes s.hhduc
  | .bqr => s.bqr ≠ [] ∧ bytes = Memory.bytes s.bqr

/-- The state after `k` ticks with no other command between them (R79 `TICKS`); `none` if one of them stopped the machine. -/
def afterTicks : Nat → State → Option State
  | 0, s => some s
  | k + 1, s =>
    match exec .flkTick s with
    | .next t => afterTicks k t
    | .fault _ => none
    | .refused _ => none

/-- The cursor is at its initial value (R182). -/
abbrev cursorInitial (s : State) : Prop := s.byteIndex = 0#9 ∧ s.lowHalfPending = true ∧ s.clockHigh = true

/-- A tick has its effect (R187). -/
abbrev ticks (s : State) : Prop := s.txState = .running ∧ s.unitState = .ready ∧ s.fault = none

/-! ### What the encoders are asked for, in the numbers of the rules -/

/-- `S` of R132: four fixed bytes, the start code, and for each present element its length byte and its bytes. -/
def payloadSize (sc : List Byte) (des : List (List Byte)) : Nat :=
  4 + sc.length + ((des.filter fun de => !de.isEmpty).map fun de => 1 + de.length).sum

/-- Fields that pass every check (R131, R133). -/
def accepted (sc de1 de2 de3 : List Byte) : Prop :=
  1 ≤ sc.length ∧ sc.length ≤ 63 ∧ de1.length ≤ 127 ∧ de2.length ≤ 127 ∧ de3.length ≤ 127 ∧
    payloadSize sc [de1, de2, de3] ≤ 256

/-- The Luhn-style sum of R140 in one sum over the bytes it covers: control, start code, data; and the `LDE` bytes where
`LUHN_COVERS_LDE` is true. -/
def luhnTotal (coversLde : Bool) (sc : List Byte) (des : List (List Byte)) : Nat :=
  luhnSum (0x01#8 :: (sc ++ des.flatten)) +
    if coversLde then
      luhnSum ((des.filter fun de => !de.isEmpty).map fun de => BitVec.ofNat 8 de.length ||| 0x40#8)
    else 0

/-! ### What stays as it was -/

/-- A buffer is unchanged: the same cells, and every address reads as before (R52). -/
abbrev sameSpace (sp : Space) (s t : State) : Prop :=
  t.space sp = s.space sp ∧ ∀ a, memRead sp a t = memRead sp a s

/-- The transmitter's cursor and its frames are unchanged (R28 to R31, R33). -/
abbrev sameTransmission (s t : State) : Prop :=
  t.txLen = s.txLen ∧ t.byteIndex = s.byteIndex ∧ t.lowHalfPending = s.lowHalfPending ∧ t.clockHigh = s.clockHigh ∧
    t.lastFrame = s.lastFrame ∧ t.frames = s.frames

/-- The interface is unchanged but for what was taken from it. -/
abbrev sameInterface (s t : State) : Prop := t.arrivals = s.arrivals ∧ t.readback = s.readback

/-! ### Invariants -/

/-- The contents of `HHDUC` (R22, R41). -/
abbrev hhducInv (m : Memory) : Prop :=
  Memory.wf m ∧ (m ≠ [] → 5 ≤ m.length ∧ m.length ≤ 256 ∧ Memory.read m 0 = some (BitVec.ofNat 8 (m.length - 1)))

/-- The contents of `BQR` (R23, R41). -/
abbrev bqrInv (m : Memory) : Prop :=
  Memory.wf m ∧ (m ≠ [] → 5 ≤ m.length ∧ m.length ≤ 261 ∧
    Memory.read m 0 = some 0x44#8 ∧ Memory.read m 1 = some 0x4B#8)

/-- The values `ERR` can hold (R26, R211). -/
abbrev errLegal (e : Byte) : Prop :=
  e = 0x00#8 ∨ e = 0x11#8 ∨ e = 0x21#8 ∨ e = 0x31#8 ∨ e = 0x41#8 ∨ e = 0x51#8 ∨ e = 0x62#8 ∨ e = 0x72#8

/-- The invariant of R41, with the reserved values of R26 and the cancellation latch of R186 and R188: it holds at reset and
every step keeps it, faulted or not. -/
structure StateInv (s : State) : Prop where
  hhduc : hhducInv s.hhduc
  bqr : bqrInv s.bqr
  running : s.txState = .running →
    s.hhduc ≠ [] ∧ s.txLen.toNat = s.hhduc.length ∧ s.byteIndex.toNat ≤ s.txLen.toNat + 1
  cancelRunning : s.txState = .running → s.cancelPending = false
  cancelStopped : s.txState = .stopped → s.cancelPending = true
  err : errLegal s.err
  aborted : s.err ≠ 0x00#8 ↔ s.unitState = .aborted

/-! ### The stream of a transmission -/

/-- `stream(i)` of R180 over a payload. -/
def streamOf (payload : List Byte) (i : Nat) : Byte := (Config.startRom ++ payload).getD i 0#8

/-- The length of a cycle in frames (R189). -/
def cycleFrames (payload : List Byte) : Nat := Config.framesPerByte * (payload.length + 2)

/-- `frame(k)` of R192: the frame of the `k`-th tick after `FLK_START`. -/
def frameAt (payload : List Byte) (k : Nat) : Frame :=
  let c := k % cycleFrames payload
  { clock := decide (c % 4 % 2 = 0)
    nibble := if c % 4 < 2 then loNibble (streamOf payload (c / 4)) else hiNibble (streamOf payload (c / 4)) }

/-- The first `k` frames of a transmission (R192). -/
def framesUpTo (payload : List Byte) (k : Nat) : List Frame := (List.range k).map (frameAt payload)

/-- The eight frames of the start marker, low nibble first (R193), in the rule's own numbers. -/
def startSequence : List Frame :=
  [⟨true, 0xF#4⟩, ⟨false, 0xF#4⟩, ⟨true, 0x0#4⟩, ⟨false, 0x0#4⟩,
   ⟨true, 0xF#4⟩, ⟨false, 0xF#4⟩, ⟨true, 0xF#4⟩, ⟨false, 0xF#4⟩]

/-- The cursor before tick `k` (R192). -/
structure CursorAt (payload : List Byte) (k : Nat) (s : State) : Prop where
  byteIndex : s.byteIndex.toNat = k % cycleFrames payload / 4
  lowHalf : s.lowHalfPending = decide (k % cycleFrames payload % 4 < 2)
  clock : s.clockHigh = decide (k % cycleFrames payload % 4 % 2 = 0)

/-- What the transmitter has sent and where its cursor stands: nothing while IDLE, and from `FLK_START` on exactly the frames of
R192, with the cursor of R192 after as many ticks. It speaks of the whole trace since reset, because one run has at most one
transmission (R243). -/
structure StreamInv (s : State) : Prop where
  idle : s.txState = .idle → s.frames = []
  length : s.txState ≠ .idle → s.txLen.toNat = s.hhduc.length
  sent : s.txState ≠ .idle → s.frames = framesUpTo (Memory.bytes s.hhduc) s.frames.length
  cursor : s.txState ≠ .idle → CursorAt (Memory.bytes s.hhduc) s.frames.length s
  last : s.lastFrame = s.frames.getLast?

/-! ### Timing (R247): no step reads it -/

/-- When frame `k` is emitted, `FLK_START` at time 0 and no cancellation (R247). -/
def frameTime (p : Config.Params) (k : Nat) : Nat := (k + 1) * p.tickPeriod

/-- How long a cycle of an `n`-byte payload lasts (R247). -/
def cycleTime (p : Config.Params) (n : Nat) : Nat := Config.framesPerByte * (n + 2) * p.tickPeriod

/-! ### The host's duties (R215, R243) -/

/-- A line terminator: line feed or carriage return (log 24). -/
def lineTerminator (b : Byte) : Bool := b == 0x0A#8 || b == 0x0D#8

/-- A field as the host must supply it, "already trimmed of line terminators" (R215). -/
def trimmed (field : List Byte) : Bool :=
  match field.getLast? with
  | none => true
  | some b => !lineTerminator b

/-- The host's duty when it issues a command (R215, R243): the commands of the run's order come after a reset once the last run
has ended; the fields are trimmed; `ENC_HHDUC` not while RUNNING; `ENC_BQR @HHDUC` and `FLK_START` after an encoded payload;
`FLK_START` once. Events are other agents' and bind the host to nothing (log 2, log 25). -/
def commandDuty (i : Instr) (s : State) : Bool :=
  match i with
  | .dsum _ => true
  | .nxor _ => true
  | .crc16 _ => true
  | .encHhduc sc de1 de2 de3 =>
    !s.ended && !decide (s.txState = .running) && trimmed sc && trimmed de1 && trimmed de2 && trimmed de3
  | .encBqr src => !s.ended && (!decide (src = .hhduc) || s.hhducValid)
  | .flkStart => !s.ended && decide (s.txState = .idle) && s.hhducValid
  | .flkTick => true
  | .flkCancel => true

/-- The host keeps its duties in what it puts on the interface in a state (R215): a word comes with its complete operand. There
is no arrival for a direct write of block state, nor for an event that the host drives itself (D38; log 2). -/
def keepsDuties (p : Config.Params) (a : Arrival) (s : State) : Bool :=
  match a with
  | .command w port =>
    match decodeAt p.dsumWidth w port with
    | .command i => commandDuty i s
    | .reserved => true
    | .operandShort => false
    | .operandLong => false
    | .operandRange => false
  | .read _ => true
  | .reset => true

/-! ### Runs under a schedule of the agents, and the launch premises (R216) -/

/-- What the agents do: at each point one of them puts something on the interface, or none does (R16). -/
abbrev Schedule := Nat → Option Arrival

/-- The state before point `n` of a schedule, by the machine's own step; `none` once the machine has stopped. -/
def runOn (p : Config.Params) (agents : Schedule) (s : State) : Nat → Option State
  | 0 => some s
  | n + 1 =>
    match runOn p agents s n with
    | none => none
    | some t =>
      match stepAt p { t with arrivals := (agents n).toList } with
      | .next u => some u
      | .fault _ => none
      | .refused _ => none

/-- `FLK_TICK` as it arrives (R71). -/
abbrev tickArrival : Arrival := .command 0x2100#16 []

/-- `FLK_CANCEL` as it arrives (R71). -/
abbrev cancelArrival : Arrival := .command 0x2200#16 []

/-- `host_duties` (R216): everything that arrives along the run keeps the duties. -/
def hostDuties (p : Config.Params) (agents : Schedule) (s : State) : Prop :=
  ∀ (n : Nat) (t : State) (a : Arrival), runOn p agents s n = some t → agents n = some a → keepsDuties p a t = true

/-- The launch premises (R216). `param_luhn` is the value `p.luhnCoversLde`, which a claim that names a checksum byte fixes. -/
structure Launch (p : Config.Params) (agents : Schedule) (s : State) : Prop where
  /-- `reset_state`; in it no command is half delivered, no tick is pending and `CANCEL_PENDING` is 0. -/
  reset_state : s = State.reset
  /-- `no_fault`. -/
  no_fault : s.fault = none
  /-- `no_refusal`. -/
  no_refusal : s.refused = none
  /-- `host_duties`. -/
  host_duties : hostDuties p agents s

/-- The transmitter runs. -/
abbrev transmits (s : State) : Prop := s.txState = .running ∧ s.unitState = .ready

/-- The first fairness premise (R216): from every point at which the transmitter runs, a tick arrives, unless it stops running
first. -/
def timerFair (p : Config.Params) (agents : Schedule) (s : State) : Prop :=
  ∀ (n : Nat) (t : State), runOn p agents s n = some t → transmits t →
    ∃ m, n ≤ m ∧ (agents m = some tickArrival ∨ ∃ u, runOn p agents s m = some u ∧ ¬ transmits u)

/-- The second fairness premise (R216): the cancellation event eventually arrives, whenever the transmitter runs. -/
def cancelFair (p : Config.Params) (agents : Schedule) (s : State) : Prop :=
  ∀ (n : Nat) (t : State), runOn p agents s n = some t → transmits t → ∃ m, n ≤ m ∧ agents m = some cancelArrival

end Sys2Proof.Safety
end

