-- ==== Sys2Proof/Certificates/Slice0/Obligations.lean ====
section
/-! DEFINITION. The statements for the provers. Each docstring names the rules of spec/ it formalises; a clause that is the
model's own choice names its log entry. -/

open Sys2Proof Sys2Proof.Machine Sys2Proof.Safety

/-! ### Encoding -/

/-- A few words written out from R71, R72, R75 and R77, and two reserved ones of R74. -/
def Obligations.DecoderReadsWrittenWords : Prop :=
  decode 0x0100#16 [0x00#8, 0x00#8, 0x00#8, 0x1C#8] = .command (.dsum 28) ∧
  decode 0x0200#16 [0x00#8, 0x03#8, 0x01#8, 0x23#8, 0x45#8] = .command (.nxor (.port [0x01#8, 0x23#8, 0x45#8])) ∧
  decode 0x0280#16 [] = .command (.nxor .bqr) ∧
  decode 0x0340#16 [] = .command (.crc16 .hhduc) ∧
  decode 0x1000#16 [0x00#8, 0x01#8, 0x31#8, 0x00#8, 0x00#8, 0x00#8, 0x00#8, 0x00#8, 0x00#8] =
    .command (.encHhduc [0x31#8] [] [] []) ∧
  decode 0x1140#16 [] = .command (.encBqr .hhduc) ∧
  decode 0x2000#16 [] = .command .flkStart ∧
  decode 0x2100#16 [] = .command .flkTick ∧
  decode 0x2200#16 [] = .command .flkCancel ∧
  decode 0x0140#16 [] = .reserved ∧
  decode 0x0201#16 [] = .reserved

/-- Decode of encode, for every command and every operand the interface can deliver (R70 to R77), at the chosen `DSUM_WIDTH` and
at every other one (R9). -/
def Obligations.EncodedCommandDecodesToItself : Prop :=
  (∀ i : Instr, i.wf = true → decode (encode i).1 (encode i).2 = .command i) ∧
  ∀ (width : Nat) (i : Instr), i.wfAt width = true →
    decodeAt width (encodeAt width i).1 (encodeAt width i).2 = .command i

/-- Encode of decode: a word with its `PORT` bytes has one reading, and it spells exactly those bits (R70 to R77), at the chosen
`DSUM_WIDTH` and at every other one (R9). -/
def Obligations.DecodedCommandEncodesBack : Prop :=
  (∀ (w : Word) (port : List Byte) (i : Instr), decode w port = .command i → i.wf = true ∧ encode i = (w, port)) ∧
  ∀ (width : Nat) (w : Word) (port : List Byte) (i : Instr), decodeAt width w port = .command i →
    i.wfAt width = true ∧ encodeAt width i = (w, port)

/-- The fields of a word: it decodes to an operation and a selector exactly when it is the operation's number, a selector R72
lists for it, and six zero bits (R70 to R73). -/
def Obligations.WordFieldsDecode : Prop :=
  ∀ (w : Word) (o : Opcode) (x : SrcSel), decodeWord w = some (o, x) ↔ x ∈ o.sources ∧ w = o.code ++ x.code ++ 0#6

/-- R74: a word R77 does not list is refused with `RF_INVALID_CMD` and nothing else changes, whatever came on `PORT`; every
word decodes to a command's operation and selector, or to "invalid", and the first holds of the 13 words of R77 alone. -/
def Obligations.ReservedWordIsRefused : Prop :=
  (∀ w : Word, w ∈ legalWords ↔ ∃ o x, decodeWord w = some (o, x)) ∧
  ∀ (s : State) (w : Word) (port : List Byte) (rest : List Arrival),
    s.arrivals = .command w port :: rest → s.fault = none → w ∉ legalWords →
      step s = .next { s with arrivals := rest, refused := s.refused.or (some .invalidCmd) }

/-! ### One step -/

/-- A step runs the command that the oldest arrival decodes to, on the state without that arrival (R56, R59), at the chosen
parameters and under any others (R35). -/
def Obligations.StepRunsTheDecodedCommand : Prop :=
  (∀ (s : State) (w : Word) (port : List Byte) (rest : List Arrival) (i : Instr),
    s.arrivals = .command w port :: rest → s.fault = none → decode w port = .command i →
      step s = exec i { s with arrivals := rest }) ∧
  ∀ (p : Config.Params) (s : State) (w : Word) (port : List Byte) (rest : List Arrival) (i : Instr),
    s.arrivals = .command w port :: rest → s.fault = none → decodeAt p.dsumWidth w port = .command i →
      stepAt p s = execAt p i { s with arrivals := rest }

/-- A recorded `FAULT` stops every command and event: no effect (R217, R219). The arrival is taken all the same (log 13). -/
def Obligations.FaultedBlockTakesNoFurtherStep : Prop :=
  (∀ (i : Instr) (s : State), s.fault ≠ none → exec i s = .next s) ∧
  ∀ (s : State) (w : Word) (port : List Byte) (rest : List Arrival),
    s.arrivals = .command w port :: rest → s.fault ≠ none → step s = .next { s with arrivals := rest }

/-- The reset input puts every piece of state at its reset value, in any state, faulted and ended ones too (R240, R241); later
arrivals are still to come (log 17). With nothing on the interface the block waits (R228, R240; log 3). -/
def Obligations.ResetInputAndWaiting : Prop :=
  (∀ (s : State) (rest : List Arrival), s.arrivals = .reset :: rest →
    step s = .next { State.reset with arrivals := rest }) ∧
  ∀ s : State, s.arrivals = [] → step s = .next s

/-- The reset values of R40, row by row (`RESULT` has none; its model value 0 is log 5 and is not claimed here). -/
def Obligations.ResetStateValues : Prop :=
  State.reset.hhduc = [] ∧ State.reset.hhducValid = false ∧ State.reset.hhducLen = 0#9 ∧
  State.reset.bqr = [] ∧ State.reset.bqrValid = false ∧ State.reset.bqrLen = 0#9 ∧
  State.reset.resultValid = false ∧ State.reset.err = 0x00#8 ∧ State.reset.unitState = .ready ∧
  State.reset.txState = .idle ∧ State.reset.txLen = 0#9 ∧ State.reset.byteIndex = 0#9 ∧
  State.reset.lowHalfPending = true ∧ State.reset.clockHigh = true ∧ State.reset.cancelPending = false ∧
  State.reset.lastFrame = none ∧ State.reset.frames = [] ∧ State.reset.fault = none ∧ State.reset.refused = none ∧
  State.reset.status = 0x00#8 ∧ memRead .startRom 0 State.reset = some 0x0F#8 ∧
  memRead .startRom 1 State.reset = some 0xFF#8 ∧ memRead .startRom 2 State.reset = none

/-- A word whose `PORT` bytes are not exactly its operand has no move (R215, D38): the model stops there by name (log 4). An
integer beyond its width can come only at a width that is no whole number of bytes. -/
def Obligations.IncompleteOperandStops : Prop :=
  (∀ (s : State) (w : Word) (port : List Byte) (rest : List Arrival),
    s.arrivals = .command w port :: rest → s.fault = none →
      (decode w port = .operandShort → step s = .fault .operandShort) ∧
      (decode w port = .operandLong → step s = .fault .operandLong) ∧ decode w port ≠ .operandRange) ∧
  ∀ (p : Config.Params) (s : State) (w : Word) (port : List Byte) (rest : List Arrival),
    s.arrivals = .command w port :: rest → s.fault = none → decodeAt p.dsumWidth w port = .operandRange →
      stepAt p s = .fault .operandRange

/-! ### The checksum primitives -/

/-- `DSUM` (R100, R107), at every width the rule bounds: `RESULT` is the sum of the decimal digits of the operand, without loss,
and nothing else changes but `RESULT_VALID`. -/
def Obligations.DsumWritesTheDigitSum : Prop :=
  ∀ (width n : Nat) (s : State), width ≤ 7280 → n < 2 ^ width → runs s →
    ∃ v : Word, exec (.dsum n) s = .next { s with result := v, resultValid := true } ∧ v.toNat = (Nat.digits 10 n).sum

/-- A digit sum leaves its number's remainder by 9 (R110). -/
def Obligations.DigitSumKeepsTheRemainderByNine : Prop := ∀ n : Nat, digitSum n % 9 = n % 9

/-- The largest result of `DSUM` at width 32 is 84, reached at 3,999,999,999 (R107). -/
def Obligations.DsumResultIsAtMost84 : Prop :=
  (∀ n : BitVec 32, digitSum n.toNat ≤ 84) ∧ digitSum 3999999999 = 84

/-- `NXOR` (R108), for each source of R72: `RESULT` is the reduction of its bytes, and nothing else changes but
`RESULT_VALID`. -/
def Obligations.NxorWritesTheReduction : Prop :=
  ∀ (src : Source) (bytes : List Byte) (s : State), runs s → delivers src bytes s →
    exec (.nxor src) s = .next { s with result := 0#12 ++ nibbleXor bytes, resultValid := true }

/-- `nibbleXor` of a concatenation, of one byte and of the empty string (R101, R110). -/
def Obligations.NibbleXorOfAConcatenation : Prop :=
  (∀ a b : List Byte, nibbleXor (a ++ b) = nibbleXor a ^^^ nibbleXor b) ∧
  (∀ b : Byte, nibbleXor [b] = (b >>> 4).setWidth 4 ^^^ (b &&& 0x0F#8).setWidth 4) ∧ nibbleXor [] = 0#4

/-- The order of the bytes does not change `nibbleXor` (R101). -/
def Obligations.NibbleXorIgnoresOrder : Prop := ∀ a b : List Byte, a.Perm b → nibbleXor a = nibbleXor b

/-- `CRC16` (R109), for each source of R72: `RESULT` is the CRC of its bytes, and nothing else changes but `RESULT_VALID`. -/
def Obligations.Crc16WritesTheCrc : Prop :=
  ∀ (src : Source) (bytes : List Byte) (s : State), runs s → delivers src bytes s →
    exec (.crc16 src) s = .next { s with result := crc16Arc bytes, resultValid := true }

/-- The residue law (R110): a string followed by its own CRC, low byte first, has CRC 0. -/
def Obligations.CrcResidueIsZero : Prop :=
  ∀ s : List Byte, crc16Arc (s ++ [(crc16Arc s).setWidth 8, (crc16Arc s >>> 8).setWidth 8]) = 0x0000#16

/-- The CRC is linear over XOR, as a CRC with initial value 0 and no final XOR is (R102, R103). -/
def Obligations.CrcIsLinear : Prop :=
  ∀ a b : List Byte, a.length = b.length →
    crc16Arc (List.zipWith (· ^^^ ·) a b) = crc16Arc a ^^^ crc16Arc b

/-- The corner cases of R109: any string of zero bytes has CRC 0, and the values the rule prints. -/
def Obligations.CrcCornerCases : Prop :=
  (∀ n : Nat, crc16Arc (List.replicate n 0x00#8) = 0x0000#16) ∧
  crc16Arc [0x80#8] = 0xA001#16 ∧ crc16Arc [0x01#8] = 0xC0C1#16 ∧
  crc16Arc [0x31#8, 0x32#8, 0x33#8, 0x34#8, 0x35#8, 0x36#8, 0x37#8, 0x38#8, 0x39#8] = 0xBB3D#16

/-- A command whose buffer is empty records `F_UNWRITTEN` and has no other effect (R72, R217). -/
def Obligations.EmptyBufferIsAFault : Prop :=
  ∀ s : State, runs s →
    (s.hhduc = [] →
      exec (.nxor .hhduc) s = .next { s with fault := some .unwritten } ∧
      exec (.crc16 .hhduc) s = .next { s with fault := some .unwritten } ∧
      exec (.encBqr .hhduc) s = .next { s with fault := some .unwritten } ∧
      (s.txState = .idle → exec .flkStart s = .next { s with fault := some .unwritten })) ∧
    (s.bqr = [] →
      exec (.nxor .bqr) s = .next { s with fault := some .unwritten } ∧
      exec (.crc16 .bqr) s = .next { s with fault := some .unwritten })

/-! ### The HHDuc encoder -/

/-- `ENC_HHDUC` on accepted fields (R143): the payload replaces `HHDUC` and nothing else changes, at the chosen
`LUHN_COVERS_LDE` and under either value (R35, R140). -/
def Obligations.EncHhducWritesThePayload : Prop :=
  ∀ (sc de1 de2 de3 : List Byte) (s : State), runs s → s.txState = .idle → accepted sc de1 de2 de3 →
    exec (.encHhduc sc de1 de2 de3) s =
      .next { s with hhduc := Memory.ofBytes (hhducPayload Config.luhnCoversLde sc de1 de2 de3) } ∧
    ∀ p : Config.Params, execAt p (.encHhduc sc de1 de2 de3) s =
      .next { s with hhduc := Memory.ofBytes (hhducPayload p.luhnCoversLde sc de1 de2 de3) }

/-- The layout of the payload (R57, R132, R135 to R139, R147), for either value of `LUHN_COVERS_LDE`: size, `LC`, `LS`,
control, start code, and each present element at the next free offset. -/
def Obligations.HhducPayloadLayout : Prop :=
  ∀ (covers : Bool) (sc de1 de2 de3 p : List Byte), accepted sc de1 de2 de3 →
    p = hhducPayload covers sc de1 de2 de3 →
      p.length = payloadSize sc [de1, de2, de3] ∧
      (∃ lc, p[0]? = some lc ∧ lc.toNat = payloadSize sc [de1, de2, de3] - 1) ∧
      p[1]? = some (BitVec.ofNat 8 sc.length ||| 0xC0#8) ∧
      p[2]? = some 0x01#8 ∧
      (p.drop 3).take sc.length = sc ∧
      (p.drop (3 + sc.length)).dropLast =
        ([de1, de2, de3].filter fun de => !de.isEmpty).flatMap fun de => (BitVec.ofNat 8 de.length ||| 0x40#8) :: de

/-- The checksum byte (R140 to R142), for either value of `LUHN_COVERS_LDE`: high nibble from the Luhn-style sum, low nibble
the XOR of every nibble before it. -/
def Obligations.HhducChecksumByte : Prop :=
  ∀ (covers : Bool) (sc de1 de2 de3 p : List Byte), accepted sc de1 de2 de3 →
    p = hhducPayload covers sc de1 de2 de3 →
      ∃ chk, p.getLast? = some chk ∧
        chk.toNat / 16 = (10 - luhnTotal covers sc [de1, de2, de3] % 10) % 10 ∧
        (chk &&& 0x0F#8).setWidth 4 = nibbleXor p.dropLast

/-- `luhnTerm` (R105): the high nibble, and the digit sum of the doubled low nibble from the rule's own table. -/
def Obligations.LuhnTermTable : Prop :=
  ∀ b : Byte, some (luhnTerm b) =
    ([0, 2, 4, 6, 8, 1, 3, 5, 7, 9, 2, 4, 6, 8, 10, 3][b.toNat % 16]?).map (b.toNat / 16 + ·)

/-- The rejections of `ENC_HHDUC`, in the order of R134 and with the codes of R211: `ERR` and `UNIT_STATE` are written and
nothing else (R131, R133, R213). -/
def Obligations.EncHhducRejections : Prop :=
  ∀ (sc de1 de2 de3 : List Byte) (s : State), runs s → s.txState = .idle →
    (sc.length = 0 →
      exec (.encHhduc sc de1 de2 de3) s = .next { s with err := 0x11#8, unitState := .aborted }) ∧
    (63 < sc.length →
      exec (.encHhduc sc de1 de2 de3) s = .next { s with err := 0x21#8, unitState := .aborted }) ∧
    (1 ≤ sc.length ∧ sc.length ≤ 63 ∧ 127 < de1.length →
      exec (.encHhduc sc de1 de2 de3) s = .next { s with err := 0x31#8, unitState := .aborted }) ∧
    (1 ≤ sc.length ∧ sc.length ≤ 63 ∧ de1.length ≤ 127 ∧ 127 < de2.length →
      exec (.encHhduc sc de1 de2 de3) s = .next { s with err := 0x41#8, unitState := .aborted }) ∧
    (1 ≤ sc.length ∧ sc.length ≤ 63 ∧ de1.length ≤ 127 ∧ de2.length ≤ 127 ∧ 127 < de3.length →
      exec (.encHhduc sc de1 de2 de3) s = .next { s with err := 0x51#8, unitState := .aborted }) ∧
    (1 ≤ sc.length ∧ sc.length ≤ 63 ∧ de1.length ≤ 127 ∧ de2.length ≤ 127 ∧ de3.length ≤ 127 ∧
        256 < payloadSize sc [de1, de2, de3] →
      exec (.encHhduc sc de1 de2 de3) s = .next { s with err := 0x62#8, unitState := .aborted })

/-- `NXOR @HHDUC` after a successful `ENC_HHDUC` gives the Luhn nibble (R108), at the chosen `LUHN_COVERS_LDE` and under either
value. -/
def Obligations.NxorOfThePayloadIsTheLuhnNibble : Prop :=
  ∀ (sc de1 de2 de3 : List Byte) (s : State), runs s → s.txState = .idle → accepted sc de1 de2 de3 →
    (∃ t u, exec (.encHhduc sc de1 de2 de3) s = .next t ∧ exec (.nxor .hhduc) t = .next u ∧
      u.result.toNat = (10 - luhnTotal Config.luhnCoversLde sc [de1, de2, de3] % 10) % 10) ∧
    ∀ p : Config.Params, ∃ t u, execAt p (.encHhduc sc de1 de2 de3) s = .next t ∧ execAt p (.nxor .hhduc) t = .next u ∧
      u.result.toNat = (10 - luhnTotal p.luhnCoversLde sc [de1, de2, de3] % 10) % 10

/-- The `LDE` byte cannot tell a length of 1 to 63 from that length plus 64, and is the length itself from 64 to 127 (R144). -/
def Obligations.LdeFlagOverlapsTheLength : Prop :=
  ∀ de : List Byte,
    (1 ≤ de.length ∧ de.length ≤ 63 → (ldeByte de).toNat = de.length + 64 ∧
      ∀ de' : List Byte, de'.length = de.length + 64 → ldeByte de' = ldeByte de) ∧
    (64 ≤ de.length ∧ de.length ≤ 127 → (ldeByte de).toNat = de.length)

/-! ### The BQR encoder -/

/-- `ENC_BQR` (R167) from `PORT` or from `HHDUC`, at most 256 bytes, RUNNING or not: the payload replaces `BQR` and nothing else
changes. -/
def Obligations.EncBqrWritesThePayload : Prop :=
  ∀ (src : Source) (h : List Byte) (s : State), runs s → src ≠ .bqr → delivers src h s → h.length ≤ 256 →
    exec (.encBqr src) s = .next { s with bqr := Memory.ofBytes (maskDK (bqrPre h)) }

/-- More than 256 input bytes: CapacityError, and `BQR` keeps its contents (R160, R211, R213). `ENC_BQR` of the `BQR` buffer is
a reserved word (R72, R74; log 14). -/
def Obligations.EncBqrRejections : Prop :=
  ∀ s : State, runs s →
    (∀ (src : Source) (h : List Byte), src ≠ .bqr → delivers src h s → 256 < h.length →
      exec (.encBqr src) s = .next { s with err := 0x72#8, unitState := .aborted }) ∧
    exec (.encBqr .bqr) s = .next { s with refused := s.refused.or (some .invalidCmd) }

/-- The layout of the BQR payload (R58): magic, masked flag, masked input, and the masked CRC of the unmasked bytes, high byte
first. -/
def Obligations.BqrPayloadLayout : Prop :=
  ∀ (h q : List Byte) (c : Word), encodeBqr h = .ok q → c = crc16Arc ([0x44#8, 0x4B#8, 0x4E#8] ++ h) →
    q.length = h.length + 5 ∧ q[0]? = some 0x44#8 ∧ q[1]? = some 0x4B#8 ∧ q[2]? = some 0x0A#8 ∧
    (∀ j, j < h.length → q[3 + j]? = (h[j]?).map (· ^^^ if j % 2 = 0 then 0x4B#8 else 0x44#8)) ∧
    q[h.length + 3]? = some ((c >>> 8).setWidth 8 ^^^ if h.length % 2 = 0 then 0x4B#8 else 0x44#8) ∧
    q[h.length + 4]? = some (c.setWidth 8 ^^^ if h.length % 2 = 0 then 0x44#8 else 0x4B#8)

/-- The mask is its own inverse (R165). -/
def Obligations.MaskIsSelfInverse : Prop := ∀ x : List Byte, maskDK (maskDK x) = x

/-- A receiver that unmasks first accepts every encoded payload and gets the input back (R168). -/
def Obligations.ReceiverRecoversTheInput : Prop :=
  ∀ h q : List Byte, encodeBqr h = .ok q → checkBqr q = (true, h)

/-! ### The flicker transmitter -/

/-- `FLK_START` (R186) while IDLE with a payload: the cursor is loaded and the transmitter runs, or stops at once where a
cancellation is latched; no frame. -/
def Obligations.FlkStartLoadsTheCursor : Prop :=
  ∀ s : State, s.fault = none → s.unitState = .ready → s.txState = .idle → s.hhduc ≠ [] →
    exec .flkStart s = .next { s with
      txLen := s.hhducLen, byteIndex := 0#9, lowHalfPending := true, clockHigh := true,
      txState := if s.cancelPending then .stopped else .running }

/-- A running transmitter turns `FLK_START` and `ENC_HHDUC` away with their model faults (R143, R186, R217). -/
def Obligations.RunningTransmitterIsBusy : Prop :=
  ∀ s : State, runs s → s.txState = .running →
    exec .flkStart s = .next { s with fault := some .txBusy } ∧
    ∀ sc de1 de2 de3, exec (.encHhduc sc de1 de2 de3) s = .next { s with fault := some .hhducBusy }

/-- The tick transition (R183), in every state of the invariant in which a tick is taken: one frame of the current byte, then
the cursor. -/
def Obligations.FlkTickEmitsAndAdvances : Prop :=
  ∀ s : State, StateInv s → ticks s →
    ∃ (cur : Byte) (f : Frame),
      (if s.byteIndex.toNat < 2 then [0x0F#8, 0xFF#8][s.byteIndex.toNat]?
        else memRead .hhduc (s.byteIndex.toNat - 2) s) = some cur ∧
      f = { clock := s.clockHigh,
            nibble := if s.lowHalfPending then (cur &&& 0x0F#8).setWidth 4 else (cur >>> 4).setWidth 4 } ∧
      exec .flkTick s = .next { s with
        frames := s.frames ++ [f]
        lastFrame := some f
        clockHigh := !s.clockHigh
        lowHalfPending := if s.clockHigh then s.lowHalfPending else !s.lowHalfPending
        byteIndex :=
          if s.clockHigh || s.lowHalfPending then s.byteIndex
          else if s.byteIndex.toNat + 1 = s.txLen.toNat + 2 then 0#9 else s.byteIndex + 1#9 }

/-- A tick that the transmitter does not take has no effect (R187). -/
def Obligations.TickElsewhereHasNoEffect : Prop := ∀ s : State, ¬ ticks s → exec .flkTick s = .next s

/-- `FLK_CANCEL` (R188): latched, and a RUNNING transmitter stops at once; no effect after the end of run. -/
def Obligations.FlkCancelLatchesAndStops : Prop :=
  (∀ s : State, runs s → exec .flkCancel s = .next { s with
    cancelPending := true
    txState := if s.txState = .running then .stopped else s.txState }) ∧
  ∀ s : State, s.ended = true → exec .flkCancel s = .next s

/-- A cancellation and a tick expiry at one instant (R220): both orders, one frame more or none, and STOPPED either way. -/
def Obligations.CancelAndTickInEitherOrder : Prop :=
  ∀ s : State, StateInv s → ticks s →
    (∃ f t u, exec .flkTick s = .next t ∧ exec .flkCancel t = .next u ∧
      u.frames = s.frames ++ [f] ∧ u.txState = .stopped) ∧
    (∃ t u, exec .flkCancel s = .next t ∧ exec .flkTick t = .next u ∧
      u.frames = s.frames ∧ u.txState = .stopped ∧ u.byteIndex = s.byteIndex)

/-- Nothing is emitted after the end of run, by any command or event (R194, R214, R221). -/
def Obligations.NothingIsEmittedAfterTheEnd : Prop :=
  ∀ (i : Instr) (s t : State), s.ended = true → exec i s = .next t →
    t.frames = s.frames ∧ t.lastFrame = s.lastFrame ∧ t.ended = true

/-- Each nibble is held for two frames, clock 1 then clock 0, low nibble first (R184, R185): the four ticks of a byte. -/
def Obligations.NibbleIsHeldForTwoFrames : Prop :=
  ∀ (s : State) (cur : Byte), StateInv s → ticks s → s.clockHigh = true → s.lowHalfPending = true →
    streamByte s.byteIndex.toNat s = some cur →
      ∃ t, afterTicks 4 s = some t ∧ t.frames = s.frames ++
        [⟨true, loNibble cur⟩, ⟨false, loNibble cur⟩, ⟨true, hiNibble cur⟩, ⟨false, hiNibble cur⟩]

/-- The closed form (R192): from the initial cursor, `k` ticks emit the first `k` frames of the stream and leave the cursor of
tick `k`. -/
def Obligations.TicksFollowTheClosedForm : Prop :=
  ∀ (s : State) (k : Nat), StateInv s → ticks s → cursorInitial s →
    ∃ t, afterTicks k s = some t ∧ t.frames = s.frames ++ framesUpTo (Memory.bytes s.hhduc) k ∧
      CursorAt (Memory.bytes s.hhduc) k t

/-- Cycle length (R189): exactly `4*(2+N)` frames, with no wrap before, and then the wrap to the initial cursor. -/
def Obligations.CycleLength : Prop :=
  ∀ s : State, StateInv s → ticks s → cursorInitial s →
    (∀ k t, k < 4 * (2 + s.txLen.toNat) → afterTicks k s = some t → t.byteIndex.toNat = k / 4) ∧
    ∃ t, afterTicks (4 * (2 + s.txLen.toNat)) s = some t ∧ cursorInitial t ∧
      t.frames.length = s.frames.length + 4 * (2 + s.txLen.toNat)

/-- Every cycle begins with the eight frames of the start marker (R193): eight ticks from the initial cursor send them, in every
state of the invariant in which a tick is taken, and they are the first eight frames of the closed form (R192). -/
def Obligations.StartMarkerFrames : Prop :=
  (∀ s : State, StateInv s → ticks s → cursorInitial s →
    ∃ t, afterTicks 8 s = some t ∧ t.frames = s.frames ++ startSequence) ∧
  ∀ payload : List Byte, framesUpTo payload 8 = startSequence

/-- The transmitter never reads `BQR` (R23, R180): whatever it holds, ticks send the same frames. -/
def Obligations.TransmissionIgnoresBqr : Prop :=
  ∀ (s : State) (m : Memory) (k : Nat),
    (afterTicks k { s with bqr := m }).map (·.frames) = (afterTicks k s).map (·.frames)

/-! ### Marks and the end of a run -/

/-- After the end of run a host command is refused with `RF_AFTER_END` and an event has no effect (R214, R218). -/
def Obligations.AfterTheEndOfRun : Prop :=
  ∀ (i : Instr) (s : State), i.wf = true → s.fault = none → s.ended = true →
    exec i s = .next (if i.issuer = .host then { s with refused := s.refused.or (some .afterEnd) } else s)

/-- `FAULT` and `REFUSED` hold the first thing recorded; only reset clears them (R34). -/
def Obligations.MarksAreSticky : Prop :=
  ∀ s t : State, step s = .next t →
    (s.arrivals.head? ≠ some .reset →
      (∀ m, s.fault = some m → t.fault = some m) ∧ (∀ m, s.refused = some m → t.refused = some m)) ∧
    (s.arrivals.head? = some .reset → t.fault = none ∧ t.refused = none)

/-- No transition leaves ABORTED or STOPPED except reset, and `ERR` once set never changes before it (R26, R27, R241). -/
def Obligations.EndOfRunIsFinal : Prop :=
  ∀ s t : State, StateInv s → step s = .next t → s.arrivals.head? ≠ some .reset →
    (s.unitState = .aborted → t.unitState = .aborted) ∧ (s.txState = .stopped → t.txState = .stopped) ∧
    (s.err ≠ 0x00#8 → t.err = s.err)

/-! ### Frames: what a command leaves as it was -/

/-- `DSUM`, `NXOR`, `CRC16` write `RESULT` and `RESULT_VALID` (or record a mark) and nothing else (R39, R107 to R109). -/
def Obligations.PrimitivesFrame : Prop :=
  ∀ (i : Instr) (s t : State),
    ((∃ n, i = .dsum n) ∨ (∃ src, i = .nxor src) ∨ (∃ src, i = .crc16 src)) → exec i s = .next t →
      sameSpace .hhduc s t ∧ sameSpace .bqr s t ∧ t.err = s.err ∧ t.unitState = s.unitState ∧ t.txState = s.txState ∧
      sameTransmission s t ∧ t.cancelPending = s.cancelPending ∧ sameInterface s t ∧
      (t.result ≠ s.result ∨ t.resultValid ≠ s.resultValid → t.fault = s.fault ∧ t.refused = s.refused)

/-- `ENC_HHDUC` writes `HHDUC`, or `ERR` and `UNIT_STATE`, or records a mark, and nothing else (R143, R212, R217, R218); every
address of `HHDUC` reads as the new payload where there is one, and as before where there is none. It holds under every value of
the parameters; `exec` is the case of the chosen ones. -/
def Obligations.EncHhducFrame : Prop :=
  ∀ (p : Config.Params) (sc de1 de2 de3 : List Byte) (s t : State), execAt p (.encHhduc sc de1 de2 de3) s = .next t →
    (p.luhnCoversLde = Config.luhnCoversLde → exec (.encHhduc sc de1 de2 de3) s = .next t) ∧
    sameSpace .bqr s t ∧ t.result = s.result ∧ t.resultValid = s.resultValid ∧ t.txState = s.txState ∧
    sameTransmission s t ∧ t.cancelPending = s.cancelPending ∧ sameInterface s t ∧
    (runs s ∧ s.txState = .idle ∧ accepted sc de1 de2 de3 →
      (∀ a, memRead .hhduc a t = (hhducPayload p.luhnCoversLde sc de1 de2 de3)[a]?) ∧
      t.err = s.err ∧ t.unitState = s.unitState ∧ t.fault = s.fault ∧ t.refused = s.refused) ∧
    (¬ (runs s ∧ s.txState = .idle ∧ accepted sc de1 de2 de3) → sameSpace .hhduc s t)

/-- `ENC_BQR` writes `BQR`, or `ERR` and `UNIT_STATE`, or records a mark, and nothing else (R167, R212, R217, R218). -/
def Obligations.EncBqrFrame : Prop :=
  ∀ (src : Source) (s t : State), exec (.encBqr src) s = .next t →
    sameSpace .hhduc s t ∧ t.result = s.result ∧ t.resultValid = s.resultValid ∧ t.txState = s.txState ∧
    sameTransmission s t ∧ t.cancelPending = s.cancelPending ∧ sameInterface s t ∧
    (∀ h, runs s → src ≠ .bqr → delivers src h s → h.length ≤ 256 →
      (∀ a, memRead .bqr a t = (maskDK (bqrPre h))[a]?) ∧
      t.err = s.err ∧ t.unitState = s.unitState ∧ t.fault = s.fault ∧ t.refused = s.refused) ∧
    ((∀ h, ¬ (runs s ∧ src ≠ .bqr ∧ delivers src h s ∧ h.length ≤ 256)) → sameSpace .bqr s t)

/-- `FLK_START`, `FLK_TICK` and `FLK_CANCEL` write no buffer, no `RESULT` and no `ERR` (R62, R186 to R188); what each writes of
the transmitter's state is named here, the rest is unchanged. -/
def Obligations.TransmitterCommandsFrame : Prop :=
  ∀ (i : Instr) (s t : State), i = .flkStart ∨ i = .flkTick ∨ i = .flkCancel → exec i s = .next t →
    sameSpace .hhduc s t ∧ sameSpace .bqr s t ∧ t.result = s.result ∧ t.resultValid = s.resultValid ∧ t.err = s.err ∧
    t.unitState = s.unitState ∧ sameInterface s t ∧
    (i = .flkStart → t.cancelPending = s.cancelPending ∧ t.lastFrame = s.lastFrame ∧ t.frames = s.frames) ∧
    (i = .flkTick → t.txState = s.txState ∧ t.txLen = s.txLen ∧ t.cancelPending = s.cancelPending ∧
      t.refused = s.refused) ∧
    (i = .flkCancel → sameTransmission s t ∧ t.fault = s.fault ∧ t.refused = s.refused)

/-! ### Host reads and views -/

/-- A host read gives the register, view or byte it names and changes nothing of the block (R25, R33, R37, R52, R62, R215); the
value stands in the model's own `readback` (log 15). Two clauses are the model's choice: that a read still answers with `FAULT`
set (log 13), and that `LAST_FRAME` before the first frame reads as "no frame" and is no fault (log 16). -/
def Obligations.HostReadsGiveValues : Prop :=
  ∀ (s : State) (r : HostRead) (v : HostValue) (rest : List Arrival), s.arrivals = .read r :: rest →
    ((r = .result ∧ s.resultValid = true ∧ v = .word s.result) ∨ (r = .err ∧ v = .byte s.err) ∨
     (r = .status ∧ v = .byte s.status) ∨ (r = .lastFrame ∧ v = .frame s.lastFrame) ∨
     (∃ off b, r = .hhducByte off ∧ memRead .hhduc off.toNat s = some b ∧ v = .byte b) ∨
     (∃ off b, r = .bqrByte off ∧ memRead .bqr off.toNat s = some b ∧ v = .byte b)) →
      step s = .next { s with arrivals := rest, readback := some v }

/-- A host read of an unwritten `RESULT`, or at or beyond a buffer's length, records `F_UNWRITTEN` (R25, R52, R217). That such a read
with `FAULT` already set is still taken and clears `readback` is the model's choice (log 13, log 15). -/
def Obligations.HostReadOfNothingIsAFault : Prop :=
  ∀ (s : State) (r : HostRead) (rest : List Arrival), StateInv s → s.arrivals = .read r :: rest →
    ((r = .result ∧ s.resultValid = false) ∨
     (∃ off, r = .hhducByte off ∧ s.hhduc.length ≤ off.toNat) ∨ (∃ off, r = .bqrByte off ∧ s.bqr.length ≤ off.toNat)) →
      step s = .next { s with arrivals := rest, readback := none, fault := s.fault.or (some .unwritten) }

/-- `STATUS` (R37): bit by bit, at reset, and that reading it changes nothing of the block (the value read stands in `readback`,
log 15). That the read answers with `FAULT` set too is the model's choice (log 13). -/
def Obligations.StatusBits : Prop :=
  ∀ s : State,
    s.status.getLsbD 0 = decide (s.unitState = .aborted) ∧
    s.status.extractLsb' 1 2 =
      (match s.txState with
        | .idle => 0#2
        | .running => 1#2
        | .stopped => 2#2) ∧
    s.status.getLsbD 3 = s.hhducValid ∧ s.status.getLsbD 4 = s.bqrValid ∧ s.status.getLsbD 5 = s.resultValid ∧
    s.status.getLsbD 6 = s.cancelPending ∧
    s.status.getLsbD 7 = decide (s.unitState = .aborted ∨ s.txState = .stopped) ∧
    State.reset.status = 0x00#8 ∧
    ∀ rest : List Arrival, s.arrivals = .read .status :: rest →
      step s = .next { s with arrivals := rest, readback := some (.byte s.status) }

/-- The fields of `ERR` for each cause (R26, R211): `KIND` is 1 exactly for causes 1 to 5 and 2 exactly for 6 and 7, and the
reserved bits are 0. -/
def Obligations.ErrFields : Prop :=
  ∀ c : ErrorCause,
    c.err.getLsbD 2 = false ∧ c.err.getLsbD 3 = false ∧ c.err.getLsbD 7 = false ∧
    (errKind c.err = 1#2 ↔ 1 ≤ (errCause c.err).toNat ∧ (errCause c.err).toNat ≤ 5) ∧
    (errKind c.err = 2#2 ↔ 6 ≤ (errCause c.err).toNat ∧ (errCause c.err).toNat ≤ 7)

/-! ### Invariants -/

/-- The invariant of R41 holds at reset. -/
def Obligations.InvariantAtReset : Prop := ∀ rest : List Arrival, StateInv { State.reset with arrivals := rest }

/-- Every step keeps the invariant of R41, faulted or not, over every command, event, read and reset, at the chosen parameters and
under any others (R35). -/
def Obligations.EveryStepKeepsTheInvariant : Prop :=
  (∀ s t : State, StateInv s → step s = .next t → StateInv t) ∧
  ∀ (p : Config.Params) (s t : State), StateInv s → stepAt p s = .next t → StateInv t

/-- The stream invariant holds at reset (R192). -/
def Obligations.StreamInvariantAtReset : Prop := ∀ rest : List Arrival, StreamInv { State.reset with arrivals := rest }

/-- Every step keeps the stream invariant: whatever the agents do and in whatever order, what has been sent since reset is
exactly a prefix of the closed form of R192 over the payload held, and the cursor stands where that prefix ends. It holds at the
chosen parameters and under any others (R35). -/
def Obligations.EveryStepKeepsTheStream : Prop :=
  (∀ s t : State, StateInv s → StreamInv s → step s = .next t → StreamInv t) ∧
  ∀ (p : Config.Params) (s t : State), StateInv s → StreamInv s → stepAt p s = .next t → StreamInv t
end

