-- ==== Sys2Proof/Laws/Checksum.lean ====
section
/-! SUPPORT. The small lemmas of the checksum primitives: the loop of `digitSum` past its last digit, and the folds over an
appended string (R53). -/

namespace Sys2Proof.Machine

/-- More steps than digits change nothing. -/
theorem digitSumLoop_fuel {n f g : Nat} (hf : n ≤ f) (hg : n ≤ g) : digitSumLoop f n = digitSumLoop g n := by
  induction f generalizing n g with
  | zero =>
    obtain rfl : n = 0 := by omega
    cases g <;> simp [digitSumLoop]
  | succ f ih =>
    cases g with
    | zero => obtain rfl : n = 0 := by omega
              simp [digitSumLoop]
    | succ g =>
      simp only [digitSumLoop]
      split
      · rfl
      · have h10 : n / 10 ≤ f ∧ n / 10 ≤ g := by omega
        rw [ih h10.1 h10.2]

@[simp] theorem digitSum_zero : digitSum 0 = 0 := rfl

/-- One turn of the loop of R100. -/
theorem digitSum_step {n : Nat} (h : n ≠ 0) : digitSum n = n % 10 + digitSum (n / 10) := by
  obtain ⟨m, rfl⟩ : ∃ m, n = m + 1 := ⟨n - 1, by omega⟩
  rw [digitSum, digitSumLoop, if_neg h, digitSum, digitSumLoop_fuel (g := (m + 1) / 10) (by omega) (le_refl _)]

theorem crc16Arc_append (s t : List Byte) : crc16Arc (s ++ t) = t.foldl crcByte (crc16Arc s) := by
  simp [crc16Arc]

@[simp] theorem luhnSum_append (s t : List Byte) : luhnSum (s ++ t) = luhnSum s + luhnSum t := by
  simp [luhnSum]

@[simp] theorem luhnSum_cons (b : Byte) (s : List Byte) : luhnSum (b :: s) = luhnTerm b + luhnSum s := by
  simp [luhnSum]

end Sys2Proof.Machine
end

