-- ==== Sys2Proof/Laws/State.lean ====
section
/-! SUPPORT. One lemma per field per named update of the state, so that no proof unfolds a record update. -/

namespace Sys2Proof.Machine

/-! ### `writeHhduc` -/

@[simp] theorem writeHhduc_hhduc (p : List Byte) (s : State) : (writeHhduc p s).hhduc = Memory.ofBytes p := rfl
@[simp] theorem writeHhduc_bqr (p : List Byte) (s : State) : (writeHhduc p s).bqr = s.bqr := rfl
@[simp] theorem writeHhduc_result (p : List Byte) (s : State) : (writeHhduc p s).result = s.result := rfl
@[simp] theorem writeHhduc_resultValid (p : List Byte) (s : State) : (writeHhduc p s).resultValid = s.resultValid := rfl
@[simp] theorem writeHhduc_err (p : List Byte) (s : State) : (writeHhduc p s).err = s.err := rfl
@[simp] theorem writeHhduc_unitState (p : List Byte) (s : State) : (writeHhduc p s).unitState = s.unitState := rfl
@[simp] theorem writeHhduc_txState (p : List Byte) (s : State) : (writeHhduc p s).txState = s.txState := rfl
@[simp] theorem writeHhduc_txLen (p : List Byte) (s : State) : (writeHhduc p s).txLen = s.txLen := rfl
@[simp] theorem writeHhduc_byteIndex (p : List Byte) (s : State) : (writeHhduc p s).byteIndex = s.byteIndex := rfl
@[simp] theorem writeHhduc_lowHalfPending (p : List Byte) (s : State) : (writeHhduc p s).lowHalfPending = s.lowHalfPending := rfl
@[simp] theorem writeHhduc_clockHigh (p : List Byte) (s : State) : (writeHhduc p s).clockHigh = s.clockHigh := rfl
@[simp] theorem writeHhduc_cancelPending (p : List Byte) (s : State) : (writeHhduc p s).cancelPending = s.cancelPending := rfl
@[simp] theorem writeHhduc_lastFrame (p : List Byte) (s : State) : (writeHhduc p s).lastFrame = s.lastFrame := rfl
@[simp] theorem writeHhduc_frames (p : List Byte) (s : State) : (writeHhduc p s).frames = s.frames := rfl
@[simp] theorem writeHhduc_fault (p : List Byte) (s : State) : (writeHhduc p s).fault = s.fault := rfl
@[simp] theorem writeHhduc_refused (p : List Byte) (s : State) : (writeHhduc p s).refused = s.refused := rfl
@[simp] theorem writeHhduc_arrivals (p : List Byte) (s : State) : (writeHhduc p s).arrivals = s.arrivals := rfl
@[simp] theorem writeHhduc_readback (p : List Byte) (s : State) : (writeHhduc p s).readback = s.readback := rfl

/-! ### `writeBqr` -/

@[simp] theorem writeBqr_hhduc (p : List Byte) (s : State) : (writeBqr p s).hhduc = s.hhduc := rfl
@[simp] theorem writeBqr_bqr (p : List Byte) (s : State) : (writeBqr p s).bqr = Memory.ofBytes p := rfl
@[simp] theorem writeBqr_result (p : List Byte) (s : State) : (writeBqr p s).result = s.result := rfl
@[simp] theorem writeBqr_resultValid (p : List Byte) (s : State) : (writeBqr p s).resultValid = s.resultValid := rfl
@[simp] theorem writeBqr_err (p : List Byte) (s : State) : (writeBqr p s).err = s.err := rfl
@[simp] theorem writeBqr_unitState (p : List Byte) (s : State) : (writeBqr p s).unitState = s.unitState := rfl
@[simp] theorem writeBqr_txState (p : List Byte) (s : State) : (writeBqr p s).txState = s.txState := rfl
@[simp] theorem writeBqr_txLen (p : List Byte) (s : State) : (writeBqr p s).txLen = s.txLen := rfl
@[simp] theorem writeBqr_byteIndex (p : List Byte) (s : State) : (writeBqr p s).byteIndex = s.byteIndex := rfl
@[simp] theorem writeBqr_lowHalfPending (p : List Byte) (s : State) : (writeBqr p s).lowHalfPending = s.lowHalfPending := rfl
@[simp] theorem writeBqr_clockHigh (p : List Byte) (s : State) : (writeBqr p s).clockHigh = s.clockHigh := rfl
@[simp] theorem writeBqr_cancelPending (p : List Byte) (s : State) : (writeBqr p s).cancelPending = s.cancelPending := rfl
@[simp] theorem writeBqr_lastFrame (p : List Byte) (s : State) : (writeBqr p s).lastFrame = s.lastFrame := rfl
@[simp] theorem writeBqr_frames (p : List Byte) (s : State) : (writeBqr p s).frames = s.frames := rfl
@[simp] theorem writeBqr_fault (p : List Byte) (s : State) : (writeBqr p s).fault = s.fault := rfl
@[simp] theorem writeBqr_refused (p : List Byte) (s : State) : (writeBqr p s).refused = s.refused := rfl
@[simp] theorem writeBqr_arrivals (p : List Byte) (s : State) : (writeBqr p s).arrivals = s.arrivals := rfl
@[simp] theorem writeBqr_readback (p : List Byte) (s : State) : (writeBqr p s).readback = s.readback := rfl

/-! ### `writeResult` -/

@[simp] theorem writeResult_hhduc (v : Word) (s : State) : (writeResult v s).hhduc = s.hhduc := rfl
@[simp] theorem writeResult_bqr (v : Word) (s : State) : (writeResult v s).bqr = s.bqr := rfl
@[simp] theorem writeResult_result (v : Word) (s : State) : (writeResult v s).result = v := rfl
@[simp] theorem writeResult_resultValid (v : Word) (s : State) : (writeResult v s).resultValid = true := rfl
@[simp] theorem writeResult_err (v : Word) (s : State) : (writeResult v s).err = s.err := rfl
@[simp] theorem writeResult_unitState (v : Word) (s : State) : (writeResult v s).unitState = s.unitState := rfl
@[simp] theorem writeResult_txState (v : Word) (s : State) : (writeResult v s).txState = s.txState := rfl
@[simp] theorem writeResult_txLen (v : Word) (s : State) : (writeResult v s).txLen = s.txLen := rfl
@[simp] theorem writeResult_byteIndex (v : Word) (s : State) : (writeResult v s).byteIndex = s.byteIndex := rfl
@[simp] theorem writeResult_lowHalfPending (v : Word) (s : State) : (writeResult v s).lowHalfPending = s.lowHalfPending := rfl
@[simp] theorem writeResult_clockHigh (v : Word) (s : State) : (writeResult v s).clockHigh = s.clockHigh := rfl
@[simp] theorem writeResult_cancelPending (v : Word) (s : State) : (writeResult v s).cancelPending = s.cancelPending := rfl
@[simp] theorem writeResult_lastFrame (v : Word) (s : State) : (writeResult v s).lastFrame = s.lastFrame := rfl
@[simp] theorem writeResult_frames (v : Word) (s : State) : (writeResult v s).frames = s.frames := rfl
@[simp] theorem writeResult_fault (v : Word) (s : State) : (writeResult v s).fault = s.fault := rfl
@[simp] theorem writeResult_refused (v : Word) (s : State) : (writeResult v s).refused = s.refused := rfl
@[simp] theorem writeResult_arrivals (v : Word) (s : State) : (writeResult v s).arrivals = s.arrivals := rfl
@[simp] theorem writeResult_readback (v : Word) (s : State) : (writeResult v s).readback = s.readback := rfl

/-! ### `emit` -/

@[simp] theorem emit_hhduc (f : Frame) (s : State) : (emit f s).hhduc = s.hhduc := rfl
@[simp] theorem emit_bqr (f : Frame) (s : State) : (emit f s).bqr = s.bqr := rfl
@[simp] theorem emit_result (f : Frame) (s : State) : (emit f s).result = s.result := rfl
@[simp] theorem emit_resultValid (f : Frame) (s : State) : (emit f s).resultValid = s.resultValid := rfl
@[simp] theorem emit_err (f : Frame) (s : State) : (emit f s).err = s.err := rfl
@[simp] theorem emit_unitState (f : Frame) (s : State) : (emit f s).unitState = s.unitState := rfl
@[simp] theorem emit_txState (f : Frame) (s : State) : (emit f s).txState = s.txState := rfl
@[simp] theorem emit_txLen (f : Frame) (s : State) : (emit f s).txLen = s.txLen := rfl
@[simp] theorem emit_byteIndex (f : Frame) (s : State) : (emit f s).byteIndex = s.byteIndex := rfl
@[simp] theorem emit_lowHalfPending (f : Frame) (s : State) : (emit f s).lowHalfPending = s.lowHalfPending := rfl
@[simp] theorem emit_clockHigh (f : Frame) (s : State) : (emit f s).clockHigh = s.clockHigh := rfl
@[simp] theorem emit_cancelPending (f : Frame) (s : State) : (emit f s).cancelPending = s.cancelPending := rfl
@[simp] theorem emit_lastFrame (f : Frame) (s : State) : (emit f s).lastFrame = some f := rfl
@[simp] theorem emit_frames (f : Frame) (s : State) : (emit f s).frames = s.frames ++ [f] := rfl
@[simp] theorem emit_fault (f : Frame) (s : State) : (emit f s).fault = s.fault := rfl
@[simp] theorem emit_refused (f : Frame) (s : State) : (emit f s).refused = s.refused := rfl
@[simp] theorem emit_arrivals (f : Frame) (s : State) : (emit f s).arrivals = s.arrivals := rfl
@[simp] theorem emit_readback (f : Frame) (s : State) : (emit f s).readback = s.readback := rfl

/-! ### `raise` -/

@[simp] theorem raise_hhduc (c : ErrorCause) (s : State) : (raise c s).hhduc = s.hhduc := rfl
@[simp] theorem raise_bqr (c : ErrorCause) (s : State) : (raise c s).bqr = s.bqr := rfl
@[simp] theorem raise_result (c : ErrorCause) (s : State) : (raise c s).result = s.result := rfl
@[simp] theorem raise_resultValid (c : ErrorCause) (s : State) : (raise c s).resultValid = s.resultValid := rfl
@[simp] theorem raise_err (c : ErrorCause) (s : State) : (raise c s).err = c.err := rfl
@[simp] theorem raise_unitState (c : ErrorCause) (s : State) : (raise c s).unitState = .aborted := rfl
@[simp] theorem raise_txState (c : ErrorCause) (s : State) : (raise c s).txState = s.txState := rfl
@[simp] theorem raise_txLen (c : ErrorCause) (s : State) : (raise c s).txLen = s.txLen := rfl
@[simp] theorem raise_byteIndex (c : ErrorCause) (s : State) : (raise c s).byteIndex = s.byteIndex := rfl
@[simp] theorem raise_lowHalfPending (c : ErrorCause) (s : State) : (raise c s).lowHalfPending = s.lowHalfPending := rfl
@[simp] theorem raise_clockHigh (c : ErrorCause) (s : State) : (raise c s).clockHigh = s.clockHigh := rfl
@[simp] theorem raise_cancelPending (c : ErrorCause) (s : State) : (raise c s).cancelPending = s.cancelPending := rfl
@[simp] theorem raise_lastFrame (c : ErrorCause) (s : State) : (raise c s).lastFrame = s.lastFrame := rfl
@[simp] theorem raise_frames (c : ErrorCause) (s : State) : (raise c s).frames = s.frames := rfl
@[simp] theorem raise_fault (c : ErrorCause) (s : State) : (raise c s).fault = s.fault := rfl
@[simp] theorem raise_refused (c : ErrorCause) (s : State) : (raise c s).refused = s.refused := rfl
@[simp] theorem raise_arrivals (c : ErrorCause) (s : State) : (raise c s).arrivals = s.arrivals := rfl
@[simp] theorem raise_readback (c : ErrorCause) (s : State) : (raise c s).readback = s.readback := rfl

/-! ### `loadCursor` -/

@[simp] theorem loadCursor_hhduc (s : State) : (loadCursor s).hhduc = s.hhduc := rfl
@[simp] theorem loadCursor_bqr (s : State) : (loadCursor s).bqr = s.bqr := rfl
@[simp] theorem loadCursor_result (s : State) : (loadCursor s).result = s.result := rfl
@[simp] theorem loadCursor_resultValid (s : State) : (loadCursor s).resultValid = s.resultValid := rfl
@[simp] theorem loadCursor_err (s : State) : (loadCursor s).err = s.err := rfl
@[simp] theorem loadCursor_unitState (s : State) : (loadCursor s).unitState = s.unitState := rfl
@[simp] theorem loadCursor_txState (s : State) : (loadCursor s).txState = s.txState := rfl
@[simp] theorem loadCursor_txLen (s : State) : (loadCursor s).txLen = s.hhducLen := rfl
@[simp] theorem loadCursor_byteIndex (s : State) : (loadCursor s).byteIndex = 0#9 := rfl
@[simp] theorem loadCursor_lowHalfPending (s : State) : (loadCursor s).lowHalfPending = true := rfl
@[simp] theorem loadCursor_clockHigh (s : State) : (loadCursor s).clockHigh = true := rfl
@[simp] theorem loadCursor_cancelPending (s : State) : (loadCursor s).cancelPending = s.cancelPending := rfl
@[simp] theorem loadCursor_lastFrame (s : State) : (loadCursor s).lastFrame = s.lastFrame := rfl
@[simp] theorem loadCursor_frames (s : State) : (loadCursor s).frames = s.frames := rfl
@[simp] theorem loadCursor_fault (s : State) : (loadCursor s).fault = s.fault := rfl
@[simp] theorem loadCursor_refused (s : State) : (loadCursor s).refused = s.refused := rfl
@[simp] theorem loadCursor_arrivals (s : State) : (loadCursor s).arrivals = s.arrivals := rfl
@[simp] theorem loadCursor_readback (s : State) : (loadCursor s).readback = s.readback := rfl

/-! ### `deliverFirst` -/

@[simp] theorem deliverFirst_hhduc (w : Word) (p : List Byte) (s : State) : (deliverFirst w p s).hhduc = s.hhduc := rfl
@[simp] theorem deliverFirst_bqr (w : Word) (p : List Byte) (s : State) : (deliverFirst w p s).bqr = s.bqr := rfl
@[simp] theorem deliverFirst_result (w : Word) (p : List Byte) (s : State) : (deliverFirst w p s).result = s.result := rfl
@[simp] theorem deliverFirst_resultValid (w : Word) (p : List Byte) (s : State) : (deliverFirst w p s).resultValid = s.resultValid := rfl
@[simp] theorem deliverFirst_err (w : Word) (p : List Byte) (s : State) : (deliverFirst w p s).err = s.err := rfl
@[simp] theorem deliverFirst_unitState (w : Word) (p : List Byte) (s : State) : (deliverFirst w p s).unitState = s.unitState := rfl
@[simp] theorem deliverFirst_txState (w : Word) (p : List Byte) (s : State) : (deliverFirst w p s).txState = s.txState := rfl
@[simp] theorem deliverFirst_txLen (w : Word) (p : List Byte) (s : State) : (deliverFirst w p s).txLen = s.txLen := rfl
@[simp] theorem deliverFirst_byteIndex (w : Word) (p : List Byte) (s : State) : (deliverFirst w p s).byteIndex = s.byteIndex := rfl
@[simp] theorem deliverFirst_lowHalfPending (w : Word) (p : List Byte) (s : State) : (deliverFirst w p s).lowHalfPending = s.lowHalfPending := rfl
@[simp] theorem deliverFirst_clockHigh (w : Word) (p : List Byte) (s : State) : (deliverFirst w p s).clockHigh = s.clockHigh := rfl
@[simp] theorem deliverFirst_cancelPending (w : Word) (p : List Byte) (s : State) : (deliverFirst w p s).cancelPending = s.cancelPending := rfl
@[simp] theorem deliverFirst_lastFrame (w : Word) (p : List Byte) (s : State) : (deliverFirst w p s).lastFrame = s.lastFrame := rfl
@[simp] theorem deliverFirst_frames (w : Word) (p : List Byte) (s : State) : (deliverFirst w p s).frames = s.frames := rfl
@[simp] theorem deliverFirst_fault (w : Word) (p : List Byte) (s : State) : (deliverFirst w p s).fault = s.fault := rfl
@[simp] theorem deliverFirst_refused (w : Word) (p : List Byte) (s : State) : (deliverFirst w p s).refused = s.refused := rfl
@[simp] theorem deliverFirst_arrivals (w : Word) (p : List Byte) (s : State) : (deliverFirst w p s).arrivals = .command w p :: s.arrivals := rfl
@[simp] theorem deliverFirst_readback (w : Word) (p : List Byte) (s : State) : (deliverFirst w p s).readback = s.readback := rfl

/-! ### `resetInput` -/

@[simp] theorem resetInput_hhduc (s : State) : (resetInput s).hhduc = State.reset.hhduc := rfl
@[simp] theorem resetInput_bqr (s : State) : (resetInput s).bqr = State.reset.bqr := rfl
@[simp] theorem resetInput_result (s : State) : (resetInput s).result = State.reset.result := rfl
@[simp] theorem resetInput_resultValid (s : State) : (resetInput s).resultValid = State.reset.resultValid := rfl
@[simp] theorem resetInput_err (s : State) : (resetInput s).err = State.reset.err := rfl
@[simp] theorem resetInput_unitState (s : State) : (resetInput s).unitState = State.reset.unitState := rfl
@[simp] theorem resetInput_txState (s : State) : (resetInput s).txState = State.reset.txState := rfl
@[simp] theorem resetInput_txLen (s : State) : (resetInput s).txLen = State.reset.txLen := rfl
@[simp] theorem resetInput_byteIndex (s : State) : (resetInput s).byteIndex = State.reset.byteIndex := rfl
@[simp] theorem resetInput_lowHalfPending (s : State) : (resetInput s).lowHalfPending = State.reset.lowHalfPending := rfl
@[simp] theorem resetInput_clockHigh (s : State) : (resetInput s).clockHigh = State.reset.clockHigh := rfl
@[simp] theorem resetInput_cancelPending (s : State) : (resetInput s).cancelPending = State.reset.cancelPending := rfl
@[simp] theorem resetInput_lastFrame (s : State) : (resetInput s).lastFrame = State.reset.lastFrame := rfl
@[simp] theorem resetInput_frames (s : State) : (resetInput s).frames = State.reset.frames := rfl
@[simp] theorem resetInput_fault (s : State) : (resetInput s).fault = State.reset.fault := rfl
@[simp] theorem resetInput_refused (s : State) : (resetInput s).refused = State.reset.refused := rfl
@[simp] theorem resetInput_arrivals (s : State) : (resetInput s).arrivals = s.arrivals := rfl
@[simp] theorem resetInput_readback (s : State) : (resetInput s).readback = State.reset.readback := rfl

/-! ### `recordFault` -/

@[simp] theorem recordFault_hhduc (m : FaultMark) (s : State) : (recordFault m s).hhduc = s.hhduc := rfl
@[simp] theorem recordFault_bqr (m : FaultMark) (s : State) : (recordFault m s).bqr = s.bqr := rfl
@[simp] theorem recordFault_result (m : FaultMark) (s : State) : (recordFault m s).result = s.result := rfl
@[simp] theorem recordFault_resultValid (m : FaultMark) (s : State) : (recordFault m s).resultValid = s.resultValid := rfl
@[simp] theorem recordFault_err (m : FaultMark) (s : State) : (recordFault m s).err = s.err := rfl
@[simp] theorem recordFault_unitState (m : FaultMark) (s : State) : (recordFault m s).unitState = s.unitState := rfl
@[simp] theorem recordFault_txState (m : FaultMark) (s : State) : (recordFault m s).txState = s.txState := rfl
@[simp] theorem recordFault_txLen (m : FaultMark) (s : State) : (recordFault m s).txLen = s.txLen := rfl
@[simp] theorem recordFault_byteIndex (m : FaultMark) (s : State) : (recordFault m s).byteIndex = s.byteIndex := rfl
@[simp] theorem recordFault_lowHalfPending (m : FaultMark) (s : State) : (recordFault m s).lowHalfPending = s.lowHalfPending := rfl
@[simp] theorem recordFault_clockHigh (m : FaultMark) (s : State) : (recordFault m s).clockHigh = s.clockHigh := rfl
@[simp] theorem recordFault_cancelPending (m : FaultMark) (s : State) : (recordFault m s).cancelPending = s.cancelPending := rfl
@[simp] theorem recordFault_lastFrame (m : FaultMark) (s : State) : (recordFault m s).lastFrame = s.lastFrame := rfl
@[simp] theorem recordFault_frames (m : FaultMark) (s : State) : (recordFault m s).frames = s.frames := rfl
@[simp] theorem recordFault_refused (m : FaultMark) (s : State) : (recordFault m s).refused = s.refused := rfl
@[simp] theorem recordFault_arrivals (m : FaultMark) (s : State) : (recordFault m s).arrivals = s.arrivals := rfl
@[simp] theorem recordFault_readback (m : FaultMark) (s : State) : (recordFault m s).readback = s.readback := rfl
@[simp] theorem recordFault_fault (m : FaultMark) (s : State) : (recordFault m s).fault = s.fault.or (some m) := rfl

/-! ### `recordRefusal` -/

@[simp] theorem recordRefusal_hhduc (m : RefusalMark) (s : State) : (recordRefusal m s).hhduc = s.hhduc := rfl
@[simp] theorem recordRefusal_bqr (m : RefusalMark) (s : State) : (recordRefusal m s).bqr = s.bqr := rfl
@[simp] theorem recordRefusal_result (m : RefusalMark) (s : State) : (recordRefusal m s).result = s.result := rfl
@[simp] theorem recordRefusal_resultValid (m : RefusalMark) (s : State) : (recordRefusal m s).resultValid = s.resultValid := rfl
@[simp] theorem recordRefusal_err (m : RefusalMark) (s : State) : (recordRefusal m s).err = s.err := rfl
@[simp] theorem recordRefusal_unitState (m : RefusalMark) (s : State) : (recordRefusal m s).unitState = s.unitState := rfl
@[simp] theorem recordRefusal_txState (m : RefusalMark) (s : State) : (recordRefusal m s).txState = s.txState := rfl
@[simp] theorem recordRefusal_txLen (m : RefusalMark) (s : State) : (recordRefusal m s).txLen = s.txLen := rfl
@[simp] theorem recordRefusal_byteIndex (m : RefusalMark) (s : State) : (recordRefusal m s).byteIndex = s.byteIndex := rfl
@[simp] theorem recordRefusal_lowHalfPending (m : RefusalMark) (s : State) : (recordRefusal m s).lowHalfPending = s.lowHalfPending := rfl
@[simp] theorem recordRefusal_clockHigh (m : RefusalMark) (s : State) : (recordRefusal m s).clockHigh = s.clockHigh := rfl
@[simp] theorem recordRefusal_cancelPending (m : RefusalMark) (s : State) : (recordRefusal m s).cancelPending = s.cancelPending := rfl
@[simp] theorem recordRefusal_lastFrame (m : RefusalMark) (s : State) : (recordRefusal m s).lastFrame = s.lastFrame := rfl
@[simp] theorem recordRefusal_frames (m : RefusalMark) (s : State) : (recordRefusal m s).frames = s.frames := rfl
@[simp] theorem recordRefusal_fault (m : RefusalMark) (s : State) : (recordRefusal m s).fault = s.fault := rfl
@[simp] theorem recordRefusal_arrivals (m : RefusalMark) (s : State) : (recordRefusal m s).arrivals = s.arrivals := rfl
@[simp] theorem recordRefusal_readback (m : RefusalMark) (s : State) : (recordRefusal m s).readback = s.readback := rfl
@[simp] theorem recordRefusal_refused (m : RefusalMark) (s : State) :
    (recordRefusal m s).refused = s.refused.or (some m) := rfl

/-! ### `advanceCursor` -/

@[simp] theorem advanceCursor_hhduc (s : State) : (advanceCursor s).hhduc = s.hhduc := by
  unfold advanceCursor; split <;> [rfl; split <;> rfl]
@[simp] theorem advanceCursor_bqr (s : State) : (advanceCursor s).bqr = s.bqr := by
  unfold advanceCursor; split <;> [rfl; split <;> rfl]
@[simp] theorem advanceCursor_result (s : State) : (advanceCursor s).result = s.result := by
  unfold advanceCursor; split <;> [rfl; split <;> rfl]
@[simp] theorem advanceCursor_resultValid (s : State) : (advanceCursor s).resultValid = s.resultValid := by
  unfold advanceCursor; split <;> [rfl; split <;> rfl]
@[simp] theorem advanceCursor_err (s : State) : (advanceCursor s).err = s.err := by
  unfold advanceCursor; split <;> [rfl; split <;> rfl]
@[simp] theorem advanceCursor_unitState (s : State) : (advanceCursor s).unitState = s.unitState := by
  unfold advanceCursor; split <;> [rfl; split <;> rfl]
@[simp] theorem advanceCursor_txState (s : State) : (advanceCursor s).txState = s.txState := by
  unfold advanceCursor; split <;> [rfl; split <;> rfl]
@[simp] theorem advanceCursor_txLen (s : State) : (advanceCursor s).txLen = s.txLen := by
  unfold advanceCursor; split <;> [rfl; split <;> rfl]
@[simp] theorem advanceCursor_cancelPending (s : State) : (advanceCursor s).cancelPending = s.cancelPending := by
  unfold advanceCursor; split <;> [rfl; split <;> rfl]
@[simp] theorem advanceCursor_lastFrame (s : State) : (advanceCursor s).lastFrame = s.lastFrame := by
  unfold advanceCursor; split <;> [rfl; split <;> rfl]
@[simp] theorem advanceCursor_frames (s : State) : (advanceCursor s).frames = s.frames := by
  unfold advanceCursor; split <;> [rfl; split <;> rfl]
@[simp] theorem advanceCursor_fault (s : State) : (advanceCursor s).fault = s.fault := by
  unfold advanceCursor; split <;> [rfl; split <;> rfl]
@[simp] theorem advanceCursor_refused (s : State) : (advanceCursor s).refused = s.refused := by
  unfold advanceCursor; split <;> [rfl; split <;> rfl]
@[simp] theorem advanceCursor_arrivals (s : State) : (advanceCursor s).arrivals = s.arrivals := by
  unfold advanceCursor; split <;> [rfl; split <;> rfl]
@[simp] theorem advanceCursor_readback (s : State) : (advanceCursor s).readback = s.readback := by
  unfold advanceCursor; split <;> [rfl; split <;> rfl]
/-- Steps 3 and 4 of the tick (R183), field by field. -/
theorem advanceCursor_eq (s : State) : advanceCursor s = { s with
    clockHigh := !s.clockHigh
    lowHalfPending := if s.clockHigh then s.lowHalfPending else !s.lowHalfPending
    byteIndex := if s.clockHigh || s.lowHalfPending then s.byteIndex else nextIndex s } := by
  cases s
  simp only [advanceCursor]
  split_ifs <;> simp_all [nextIndex]
@[simp] theorem advanceCursor_clockHigh (s : State) : (advanceCursor s).clockHigh = !s.clockHigh := by
  unfold advanceCursor; split <;> [skip; split] <;> simp_all
@[simp] theorem advanceCursor_lowHalfPending (s : State) :
    (advanceCursor s).lowHalfPending = if s.clockHigh then s.lowHalfPending else !s.lowHalfPending := by
  unfold advanceCursor; split <;> [skip; split] <;> simp_all
@[simp] theorem advanceCursor_byteIndex (s : State) :
    (advanceCursor s).byteIndex = if s.clockHigh || s.lowHalfPending then s.byteIndex else nextIndex s := by
  unfold advanceCursor; split <;> [skip; split] <;> simp_all

/-! ### Views -/

@[simp] theorem hhducValid_eq_true (s : State) : s.hhducValid = true ↔ s.hhduc ≠ [] := by
  simp [State.hhducValid]

@[simp] theorem bqrValid_eq_true (s : State) : s.bqrValid = true ↔ s.bqr ≠ [] := by
  simp [State.bqrValid]

@[simp] theorem ended_eq_true (s : State) : s.ended = true ↔ s.unitState = .aborted ∨ s.txState = .stopped := by
  simp [State.ended]

@[simp] theorem ended_eq_false (s : State) : s.ended = false ↔ s.unitState ≠ .aborted ∧ s.txState ≠ .stopped := by
  simp [State.ended]

end Sys2Proof.Machine
end

