-- ==== Sys2Proof/Laws/Memory.lean ====
section
/-! SUPPORT. The laws of buffers: what a laid-out byte string reads as, and that every memory operation keeps the canonical
form (R50 to R52). -/

namespace Sys2Proof.Machine

@[simp] theorem cellsFrom_length (k : Nat) (bs : List Byte) : (cellsFrom k bs).length = bs.length := by
  induction bs generalizing k with
  | nil => rfl
  | cons b bs ih => simp [cellsFrom, ih]

theorem cellsFrom_addresses (k : Nat) (bs : List Byte) : (cellsFrom k bs).map Prod.fst = List.range' k bs.length := by
  induction bs generalizing k with
  | nil => rfl
  | cons b bs ih => simp [cellsFrom, ih, List.range'_succ]

@[simp] theorem cellsFrom_bytes (k : Nat) (bs : List Byte) : Memory.bytes (cellsFrom k bs) = bs := by
  induction bs generalizing k with
  | nil => rfl
  | cons b bs ih => simpa [cellsFrom, Memory.bytes] using ih (k + 1)

theorem cellsFrom_read (k a : Nat) (bs : List Byte) : Memory.read (cellsFrom k bs) (k + a) = bs[a]? := by
  induction bs generalizing k a with
  | nil => rfl
  | cons b bs ih =>
    cases a with
    | zero => simp [cellsFrom, Memory.read]
    | succ a =>
      have h := ih (k + 1) a
      rw [show k + 1 + a = k + (a + 1) by omega] at h
      have hne : (k + (a + 1) == k) = false := by simp
      simpa [cellsFrom, Memory.read, List.lookup, hne] using h

@[simp] theorem bytes_length (m : Memory) : (Memory.bytes m).length = m.length := by simp [Memory.bytes]

@[simp] theorem ofBytes_length (bs : List Byte) : (Memory.ofBytes bs).length = bs.length := cellsFrom_length 0 bs

@[simp] theorem ofBytes_bytes (bs : List Byte) : Memory.bytes (Memory.ofBytes bs) = bs := cellsFrom_bytes 0 bs

/-- Reading a laid-out byte string at an address gives the byte at that offset. -/
@[simp] theorem ofBytes_read (bs : List Byte) (a : Nat) : Memory.read (Memory.ofBytes bs) a = bs[a]? := by
  simpa [Memory.ofBytes] using cellsFrom_read 0 a bs

@[simp] theorem ofBytes_eq_nil (bs : List Byte) : Memory.ofBytes bs = [] ↔ bs = [] := by
  rw [← List.length_eq_zero_iff, ofBytes_length, List.length_eq_zero_iff]

/-- Replacing a payload leaves a canonical buffer, whatever was there. -/
theorem ofBytes_wf (bs : List Byte) : Memory.wf (Memory.ofBytes bs) := by
  rw [Memory.wf, ofBytes_length, List.range_eq_range']
  exact cellsFrom_addresses 0 bs

theorem nil_wf : Memory.wf [] := rfl

/-- A canonical buffer is the layout of the bytes it holds: equal contents are equal data. -/
theorem ofBytes_bytes_of_wf {m : Memory} (h : Memory.wf m) : Memory.ofBytes (Memory.bytes m) = m := by
  have hb : (Memory.ofBytes (Memory.bytes m)).map Prod.fst = List.range m.length := by
    have := ofBytes_wf (Memory.bytes m)
    rwa [Memory.wf, ofBytes_length, bytes_length] at this
  exact (List.zip_of_prod hb (ofBytes_bytes _)).trans (List.zip_of_prod h rfl).symm

/-- A read of a canonical buffer is the byte at that offset of what it holds. -/
theorem read_of_wf {m : Memory} (h : Memory.wf m) (a : Nat) : Memory.read m a = (Memory.bytes m)[a]? := by
  conv_lhs => rw [← ofBytes_bytes_of_wf h]
  simp

/-- The addresses of a canonical buffer rise strictly. -/
theorem wf_rising {m : Memory} (h : Memory.wf m) : (m.map Prod.fst).Pairwise (· < ·) := by
  rw [h]; exact List.pairwise_lt_range

theorem writeHhduc_wf (p : List Byte) (s : State) : Memory.wf (writeHhduc p s).hhduc := ofBytes_wf p

theorem writeBqr_wf (p : List Byte) (s : State) : Memory.wf (writeBqr p s).bqr := ofBytes_wf p

theorem reset_hhduc_wf : Memory.wf State.reset.hhduc := rfl

theorem reset_bqr_wf : Memory.wf State.reset.bqr := rfl

theorem startRom_wf (s : State) : Memory.wf (s.space .startRom) := ofBytes_wf _

end Sys2Proof.Machine
end

