-- ==== Sys2Proof/Laws/Ops.lean ====
section
/-! SUPPORT. What each shared operation can do, said once: the gates (R219), the sources (R72), the cursor's byte (R180), an
arrival (R59). -/

namespace Sys2Proof.Machine

open Sys2Proof.Safety

/-! ### Gates -/

theorem unlessFaulted_of_none {s : State} (body : State → State) (h : s.fault = none) : unlessFaulted body s = body s := by
  simp [unlessFaulted, h]

theorem unlessFaulted_of_some {s : State} (body : State → State) (h : s.fault ≠ none) : unlessFaulted body s = s := by
  unfold unlessFaulted; split <;> simp_all

theorem hostCommand_runs {s : State} (body : State → State) (h : runs s) : hostCommand body s = body s := by
  obtain ⟨hf, hu, ht⟩ := h
  simp [hostCommand, unlessFaulted_of_none _ hf, State.ended, hu, ht]

theorem hostCommand_ended {s : State} (body : State → State) (hf : s.fault = none) (he : s.ended = true) :
    hostCommand body s = recordRefusal .afterEnd s := by
  rw [hostCommand, unlessFaulted_of_none _ hf, if_pos he]

theorem hostCommand_faulted {s : State} (body : State → State) (h : s.fault ≠ none) : hostCommand body s = s :=
  unlessFaulted_of_some _ h

/-- Everything a host command can do: nothing when faulted, a refusal after the end, its body otherwise. -/
theorem hostCommand_cases (body : State → State) (s : State) :
    (s.fault ≠ none ∧ hostCommand body s = s) ∨
    (s.fault = none ∧ s.ended = true ∧ hostCommand body s = recordRefusal .afterEnd s) ∨
    (runs s ∧ hostCommand body s = body s) := by
  by_cases hf : s.fault = none
  · by_cases he : s.ended = true
    · exact .inr (.inl ⟨hf, he, hostCommand_ended body hf he⟩)
    · have hr : runs s := by
        have := (ended_eq_false s).1 (by simpa using he)
        refine ⟨hf, ?_, this.2⟩
        cases hu : s.unitState <;> simp_all
      exact .inr (.inr ⟨hr, hostCommand_runs body hr⟩)
  · exact .inl ⟨hf, hostCommand_faulted body hf⟩

/-! ### Sources -/

theorem sourceBytes_eq_some {src : Source} {bytes : List Byte} {s : State} :
    sourceBytes src s = some bytes ↔ delivers src bytes s := by
  cases src with
  | port p => simp [sourceBytes, delivers, eq_comm]
  | hhduc => simp [sourceBytes, delivers, eq_comm (a := bytes)]
  | bqr => simp [sourceBytes, delivers, eq_comm (a := bytes)]

/-- Everything the byte-string operand can do: its bytes go on, or an empty buffer records `F_UNWRITTEN`. -/
theorem withSource_cases (src : Source) (body : List Byte → State → State) (s : State) :
    (∃ bytes, delivers src bytes s ∧ withSource src body s = body bytes s) ∨
    (((src = .hhduc ∧ s.hhduc = []) ∨ (src = .bqr ∧ s.bqr = [])) ∧
      withSource src body s = recordFault .unwritten s) := by
  cases h : sourceBytes src s with
  | some bytes => exact .inl ⟨bytes, sourceBytes_eq_some.1 h, by simp [withSource, h]⟩
  | none =>
    refine .inr ⟨?_, by simp [withSource, h]⟩
    cases src <;> simp_all [sourceBytes, State.hhducValid, State.bqrValid]

theorem withSource_delivers {src : Source} {bytes : List Byte} {s : State} (body : List Byte → State → State)
    (h : delivers src bytes s) : withSource src body s = body bytes s := by
  simp [withSource, sourceBytes_eq_some.2 h]

/-! ### The transmitter -/

/-- Within the stream, over a canonical buffer, the current byte is that of the start marker followed by the payload. -/
theorem streamByte_of_wf {s : State} (hw : Memory.wf s.hhduc) (i : Nat) :
    streamByte i s = (Config.startRom ++ Memory.bytes s.hhduc)[i]? := by
  unfold streamByte
  split
  · rename_i hi
    rw [List.getElem?_append_left (by simpa [Config.startRom] using hi)]
    simp [memRead, State.space]
  · rename_i hi
    rw [List.getElem?_append_right (by simp [Config.startRom]; omega)]
    simp [memRead, State.space, read_of_wf hw, Config.startRom]

/-- Everything a tick can do: emit the current byte's frame and advance, or record a read beyond the payload. -/
theorem tick_cases (s : State) :
    (∃ cur, streamByte s.byteIndex.toNat s = some cur ∧ tick s = advanceCursor (emit (currentFrame cur s) s)) ∨
    (streamByte s.byteIndex.toNat s = none ∧ tick s = recordFault .unwritten s) := by
  cases h : streamByte s.byteIndex.toNat s with
  | some cur => exact .inl ⟨cur, rfl, by simp [tick, h]⟩
  | none => exact .inr ⟨rfl, by simp [tick, h]⟩

/-! ### The interface -/

/-- A command never stops the machine: every meaning answers a next state. -/
theorem exec_next (i : Instr) (s : State) : ∃ t, exec i s = .next t := by
  cases i <;> exact ⟨_, rfl⟩

/-- `exec` is `execAt` at the chosen parameters. -/
@[simp] theorem execAt_chosen (i : Instr) (s : State) : execAt Config.chosen i s = exec i s := by
  cases i <;> rfl

/-- No parameter makes a command stop the machine. -/
theorem execAt_next (p : Config.Params) (i : Instr) (s : State) : ∃ t, execAt p i s = .next t := by
  cases i <;> exact ⟨_, rfl⟩

/-- Everything an arrival can do when it answers a next state. -/
theorem runArrival_next {p : Config.Params} {a : Arrival} {s t : State} (h : runArrival p a s = .next t) :
    (∃ w port, a = .command w port ∧
      ((s.fault ≠ none ∧ t = s) ∨ (s.fault = none ∧ ∃ i, decodeAt p.dsumWidth w port = .command i ∧ execAt p i s = .next t) ∨
       (s.fault = none ∧ decodeAt p.dsumWidth w port = .reserved ∧ t = recordRefusal .invalidCmd s))) ∨
    (∃ r, a = .read r ∧ t = hostRead r s) ∨ (a = .reset ∧ t = resetInput s) := by
  cases a with
  | command w port =>
    refine .inl ⟨w, port, rfl, ?_⟩
    simp only [runArrival, runCommand] at h
    split at h
    · rename_i hf
      cases h
      exact .inl ⟨by simp [hf], rfl⟩
    · rename_i hf
      split at h <;> first | (cases h; done) | skip
      · rename_i i hi
        exact .inr (.inl ⟨hf, i, hi, h⟩)
      · rename_i hr
        cases h
        exact .inr (.inr ⟨hf, hr, by simp [reservedWord, unlessFaulted_of_none _ hf]⟩)
  | read r => cases h; exact .inr (.inl ⟨r, rfl, rfl⟩)
  | reset => cases h; exact .inr (.inr ⟨rfl, rfl⟩)

/-- A step takes the oldest arrival, or waits. -/
theorem stepAt_next {p : Config.Params} {s t : State} (h : stepAt p s = .next t) :
    (s.arrivals = [] ∧ t = s) ∨
    (∃ a rest, s.arrivals = a :: rest ∧ runArrival p a { s with arrivals := rest } = .next t) := by
  unfold stepAt at h
  split at h
  · rename_i ha; cases h; exact .inl ⟨ha, rfl⟩
  · rename_i a rest ha; exact .inr ⟨a, rest, ha, h⟩

/-- A host read changes nothing but `readback`, and `FAULT` where it gives no value. -/
theorem hostRead_cases (r : HostRead) (s : State) :
    (∃ v, hostValue r s = some v ∧ hostRead r s = { s with readback := some v }) ∨
    (hostValue r s = none ∧ hostRead r s = recordFault .unwritten { s with readback := none }) := by
  cases h : hostValue r s with
  | some v => exact .inl ⟨v, rfl, by simp [hostRead, h]⟩
  | none => exact .inr ⟨rfl, by simp [hostRead, h]⟩

end Sys2Proof.Machine
end

