-- ==== Sys2Proof/Laws/Encoders.lean ====
section
/-! SUPPORT. What the encoders' pieces are, once each: sizes and lengths (R132, R147, R170), when the checks pass (R131, R133),
the mask byte by byte (R164). -/

namespace Sys2Proof.Machine

open Sys2Proof.Safety

/-! ### The HHDuc encoder -/

theorem hhducSize_eq (sc de1 de2 de3 : List Byte) : hhducSize sc de1 de2 de3 = payloadSize sc [de1, de2, de3] := by
  unfold hhducSize payloadSize elementSize
  cases de1 <;> cases de2 <;> cases de3 <;> simp <;> omega

/-- The checks pass on the fields R131 and R133 accept, and on no others. -/
theorem hhducCheck_eq_none (sc de1 de2 de3 : List Byte) :
    hhducCheck sc de1 de2 de3 = none ↔ accepted sc de1 de2 de3 := by
  unfold hhducCheck accepted
  rw [hhducSize_eq]
  simp only [Config.maxScLen, Config.maxDeLen, Config.maxHhducLen]
  split_ifs <;> simp <;> omega

theorem encodeHhduc_of_accepted (c : Bool) {sc de1 de2 de3 : List Byte} (h : accepted sc de1 de2 de3) :
    encodeHhduc c sc de1 de2 de3 = .ok (hhducPayload c sc de1 de2 de3) := by
  simp [encodeHhduc, (hhducCheck_eq_none ..).2 h]

theorem hhducBody_length (sc de1 de2 de3 : List Byte) :
    (hhducBody sc de1 de2 de3).length + 1 = hhducSize sc de1 de2 de3 := by
  unfold hhducBody hhducSize elementBytes elementSize
  cases de1 <;> cases de2 <;> cases de3 <;> simp <;> omega

@[simp] theorem hhducPayload_length (c : Bool) (sc de1 de2 de3 : List Byte) :
    (hhducPayload c sc de1 de2 de3).length = hhducSize sc de1 de2 de3 := by
  simp [hhducPayload, hhducBody_length]

theorem luhnNibble_toNat (sum : Nat) : (luhnNibble sum).toNat = (10 - sum % 10) % 10 := by
  simp [luhnNibble]; omega

/-! ### The BQR encoder -/

@[simp] theorem maskFrom_length (i : Nat) (x : List Byte) : (maskFrom i x).length = x.length := by
  induction x generalizing i with
  | nil => rfl
  | cons b bs ih => simp [maskFrom, ih]

/-- The mask acts byte by byte, by the offset alone. -/
theorem maskFrom_getElem? (i k : Nat) (x : List Byte) : (maskFrom i x)[k]? = (x[k]?).map (maskAt (i + k)) := by
  induction x generalizing i k with
  | nil => rfl
  | cons b bs ih =>
    cases k with
    | zero => simp [maskFrom]
    | succ k =>
      rw [show i + (k + 1) = i + 1 + k by omega]
      simpa [maskFrom] using ih (i + 1) k

@[simp] theorem maskDK_length (x : List Byte) : (maskDK x).length = x.length := maskFrom_length 0 x

theorem maskDK_getElem? (k : Nat) (x : List Byte) : (maskDK x)[k]? = (x[k]?).map (maskAt k) := by
  have h := maskFrom_getElem? 0 k x
  rwa [Nat.zero_add] at h

@[simp] theorem bqrPre_length (h : List Byte) : (bqrPre h).length = h.length + 5 := by simp [bqrPre, bqrHead]

/-- `encodeBQR` gives a payload exactly for at most 256 bytes, and which one. -/
theorem encodeBqr_eq_ok {h q : List Byte} : encodeBqr h = .ok q ↔ h.length ≤ 256 ∧ q = maskDK (bqrPre h) := by
  unfold encodeBqr
  split
  · rename_i hl; simp; intro hle; exact absurd hle (by simpa using hl)
  · rename_i hl; simp only [Except.ok.injEq]; exact ⟨fun e => ⟨by simpa using hl, e.symm⟩, fun e => e.2.symm⟩

end Sys2Proof.Machine
end

