-- ==== Sys2Proof/Laws/Encoding.lean ====
section
/-! SUPPORT. The laws of framing on `PORT` (R75): what is framed is taken back whole. -/

namespace Sys2Proof

@[simp] theorem beBytes_length (n v : Nat) : (beBytes n v).length = n := by
  induction n with
  | zero => rfl
  | succ n ih => simp [beBytes, ih]

theorem takeBytes_append {n : Nat} {a b : List Byte} (h : a.length = n) : takeBytes n (a ++ b) = some (a, b) := by
  subst h; simp [takeBytes]

/-- Two bytes give a length back, when it fits 16 bits. -/
theorem beNat_beBytes_two {v : Nat} (h : v < 65536) : beNat (beBytes 2 v) = v := by
  simp [beNat, beBytes]; omega

/-- Reading on from an accumulator. -/
theorem beNat_foldl (l : List Byte) (acc : Nat) :
    l.foldl (fun acc b => acc * 256 + b.toNat) acc = acc * 256 ^ l.length + beNat l := by
  induction l generalizing acc with
  | nil => simp [beNat]
  | cons b l ih =>
    have h : beNat (b :: l) = (0 * 256 + b.toNat) * 256 ^ l.length + beNat l := ih _
    rw [List.foldl_cons, ih, h, List.length_cons, pow_succ]
    ring

theorem beNat_append (a b : List Byte) : beNat (a ++ b) = beNat a * 256 ^ b.length + beNat b := by
  rw [beNat, List.foldl_append, beNat_foldl]; rfl

theorem beNat_cons (b : Byte) (l : List Byte) : beNat (b :: l) = b.toNat * 256 ^ l.length + beNat l := by
  simpa [beNat] using beNat_append [b] l

theorem beNat_lt (l : List Byte) : beNat l < 256 ^ l.length := by
  induction l with
  | nil => simp [beNat]
  | cons b l ih =>
    rw [beNat_cons, List.length_cons, pow_succ]
    nlinarith [b.isLt]

/-- The `k` bytes of a number depend on its remainder by `256^k` alone. -/
theorem beBytes_add_mul (k a v : Nat) : beBytes k (a * 256 ^ k + v) = beBytes k v := by
  induction k generalizing a with
  | zero => rfl
  | succ k ih =>
    have h : a * 256 ^ (k + 1) + v = (a * 256) * 256 ^ k + v := by ring
    simp only [beBytes]
    rw [h, ih, Nat.add_comm, Nat.add_mul_div_right _ _ (by positivity)]
    congr 1
    apply BitVec.eq_of_toNat_eq
    simp [Nat.add_mul_mod_self_right]

/-- As many bytes as a number needs give it back. -/
theorem beNat_beBytes {k v : Nat} (h : v < 256 ^ k) : beNat (beBytes k v) = v := by
  induction k generalizing v with
  | zero => simp at h; simp [beBytes, beNat, h]
  | succ k ih =>
    have hp : 0 < 256 ^ k := by positivity
    have hq : v / 256 ^ k < 256 := Nat.div_lt_of_lt_mul (by rw [pow_succ] at h; omega)
    have hv : v = v / 256 ^ k * 256 ^ k + v % 256 ^ k := (Nat.div_add_mod' v _).symm
    simp only [beBytes, beNat_cons, beBytes_length]
    rw [show beBytes k v = beBytes k (v % 256 ^ k) by conv_lhs => rw [hv, beBytes_add_mul],
      ih (Nat.mod_lt _ hp), BitVec.toNat_ofNat, Nat.mod_eq_of_lt (by simpa using hq), ← hv]

/-- Bytes are those of the number they spell. -/
theorem beBytes_beNat (l : List Byte) : beBytes l.length (beNat l) = l := by
  induction l with
  | nil => rfl
  | cons b l ih =>
    simp only [List.length_cons, beBytes, beNat_cons, beBytes_add_mul, ih]
    rw [Nat.add_comm, Nat.add_mul_div_right _ _ (by positivity), Nat.div_eq_of_lt (beNat_lt l)]
    simp

/-- A width fits in its bytes. -/
theorem two_pow_le_dsumBytes (width : Nat) : 2 ^ width ≤ 256 ^ Config.dsumBytes width := by
  rw [show (256 : Nat) = 2 ^ 8 by norm_num, ← pow_mul]
  exact Nat.pow_le_pow_right (by norm_num) (by simp only [Config.dsumBytes]; omega)

/-- A framed string that fits its length word is taken off `PORT` whole, and what follows it is left. -/
theorem takeString_frameString {s : List Byte} (rest : List Byte) (h : portString s = true) :
    takeString (frameString s ++ rest) = some (s, rest) := by
  have hl : s.length < 65536 := by simpa [portString] using h
  rw [frameString, List.append_assoc, takeString, takeBytes_append (beBytes_length 2 _)]
  simp only [beNat_beBytes (k := 2) hl]
  exact takeBytes_append rfl

theorem takeInteger_framed {width n : Nat} (rest : List Byte) (h : n < 2 ^ width) :
    takeInteger width (beBytes (Config.dsumBytes width) n ++ rest) = some (n, rest) := by
  simp [takeInteger, takeBytes_append (beBytes_length _ _), beNat_beBytes (h.trans_le (two_pow_le_dsumBytes width))]

theorem takeSource_framed {src : Source} (rest : List Byte) (h : src.wf = true) :
    takeSource src.sel (src.framed ++ rest) = some (src, rest) := by
  cases src with
  | port s => simp [takeSource, Source.sel, Source.framed, takeString_frameString rest (by simpa [Source.wf] using h)]
  | hhduc => rfl
  | bqr => rfl

end Sys2Proof
end

