-- ==== Sys2Proof/Laws/PerInstr.lean ====
section
/-! SUPPORT. Statements about every command as syntax: the word it is encoded with is one of the 13 legal ones (R77). -/

namespace Sys2Proof.Laws.EncodesLegalWord

/-- The word of a well-formed command is one of the 13 words of R77. -/
def Statement (i : Instr) : Prop := i.wf = true → (encode i).1 ∈ legalWords

theorem dsum (n : Nat) : Statement (.dsum n) := fun _ => by
  simp only [encode, encodeAt, Instr.word]; decide

theorem nxor (src : Source) : Statement (.nxor src) := fun _ => by
  cases src <;> simp only [encode, encodeAt, Instr.word, Source.sel] <;> decide

theorem crc16 (src : Source) : Statement (.crc16 src) := fun _ => by
  cases src <;> simp only [encode, encodeAt, Instr.word, Source.sel] <;> decide

theorem encHhduc (sc de1 de2 de3 : List Byte) : Statement (.encHhduc sc de1 de2 de3) := fun _ => by
  simp only [encode, encodeAt, Instr.word]; decide

theorem encBqr (src : Source) : Statement (.encBqr src) := fun h => by
  cases src with
  | port _ => simp only [encode, encodeAt, Instr.word, Source.sel]; decide
  | hhduc => simp only [encode, encodeAt, Instr.word, Source.sel]; decide
  | bqr => simp [Instr.wf, Instr.wfAt, Source.wf] at h

theorem flkStart : Statement .flkStart := fun _ => by decide

theorem flkTick : Statement .flkTick := fun _ => by decide

theorem flkCancel : Statement .flkCancel := fun _ => by decide

end Sys2Proof.Laws.EncodesLegalWord
end

