-- ==== Sys2Proof/Laws/Runs.lean ====
section
/-! SUPPORT. The ends of a run (R223) and what the fairness premises give (R216). -/

namespace Sys2Proof.Safety

open Sys2Proof.Machine

/-! ### The two ends of a run -/

/-- A run ends in one of the two ways and never in both, and a state with a mark set is neither (R223). -/
theorem ends_exclusive (s : State) :
    ¬ (aborted s ∧ stopped s) ∧ (aborted s ∨ stopped s ↔ s.ended = true ∧ clean s) := by
  simp only [aborted, stopped, ended_eq_true]
  cases s.unitState <;> cases s.txState <;> simp

/-- A mark set leaves the state without an exit status (R223). -/
theorem exitStatus_of_mark (p : Config.Params) {s : State} (h : ¬ clean s) : exitStatus p s = none := by
  rw [exitStatus, if_neg fun k => h k.2, if_neg fun k => h k.2.2]

/-- The state in which a run ends is its first with an end of run: nothing later changes it. -/
theorem runEnd_of_ended (p : Config.Params) (n : Nat) {s : State} (h : s.ended = true) : runEnd p n s = some s := by
  cases n <;> simp [runEnd, h]

/-! ### Runs under a schedule -/

@[simp] theorem runOn_zero (p : Config.Params) (agents : Schedule) (s : State) : runOn p agents s 0 = some s := rfl

/-- One point of a schedule is one step on what arrives there. -/
theorem runOn_succ {p : Config.Params} {agents : Schedule} {s t u : State} {n : Nat} (h : runOn p agents s n = some t)
    (hs : stepAt p { t with arrivals := (agents n).toList } = .next u) : runOn p agents s (n + 1) = some u := by
  simp only [runOn, h, hs]

/-- The cancellation event, whatever the parameters (R188). -/
theorem stepAt_cancel {p : Config.Params} {s : State} {rest : List Arrival} (ha : s.arrivals = cancelArrival :: rest)
    (hf : s.fault = none) : stepAt p s = .next (cancel { s with arrivals := rest }) := by
  have hd : decodeAt p.dsumWidth 0x2200#16 [] = .command .flkCancel := rfl
  simp [stepAt, ha, cancelArrival, runArrival, runCommand, hf, hd, execAt, execFlkCancel, unlessFaulted]

/-- A cancellation that a transmitter without a fault takes ends the run at once (R188, R194, R223). -/
theorem runOn_cancel {p : Config.Params} {agents : Schedule} {s t : State} {n : Nat} (h : runOn p agents s n = some t)
    (hr : transmits t) (hf : t.fault = none) (ha : agents n = some cancelArrival) :
    ∃ u, runOn p agents s (n + 1) = some u ∧ u.txState = .stopped ∧ u.unitState = .ready ∧ u.frames = t.frames ∧
      u.fault = none ∧ u.refused = t.refused := by
  have ha' : (agents n).toList = [cancelArrival] := by rw [ha]; rfl
  refine ⟨_, runOn_succ h (stepAt_cancel (rest := []) ha' hf), ?_⟩
  simp [cancel, State.ended, hr.1, hr.2, hf]

/-- With the second fairness premise a transmitter that runs does not run for ever: it comes to rest, by the cancellation or
before it, or the run is one that claims exclude, with a model fault or a broken duty of the host (R216, R223). -/
theorem fair_transmission_ends {p : Config.Params} {agents : Schedule} {s t : State} {n : Nat}
    (hc : cancelFair p agents s) (h : runOn p agents s n = some t) (hr : transmits t) :
    ∃ m, n ≤ m ∧ (runOn p agents s m = none ∨ ∃ u, runOn p agents s m = some u ∧ (¬ transmits u ∨ u.fault ≠ none)) := by
  obtain ⟨m, hm, ha⟩ := hc n t h hr
  cases hv : runOn p agents s m with
  | none => exact ⟨m, hm, .inl hv⟩
  | some v =>
    by_cases hk : transmits v ∧ v.fault = none
    · obtain ⟨u, hu, hs, -⟩ := runOn_cancel hv hk.1 hk.2 ha
      exact ⟨m + 1, by omega, .inr ⟨u, hu, .inl fun k => by cases hs.symm.trans k.1⟩⟩
    · exact ⟨m, hm, .inr ⟨v, hv, by tauto⟩⟩

end Sys2Proof.Safety
end

