-- ==== Sys2Proof/Machine/Assembler.lean ====
section
/-! DEFINITION. The text form of the commands (R78) and the pseudo-instructions `ENCODE` and `TICKS` (R79): one line of text to
the commands it stands for, and to the arrivals that deliver them. -/

namespace Sys2Proof.Machine

/-- A command as it arrives: its word with its `PORT` operand (R70, R75), where `DSUM_WIDTH` is `width`. -/
def arrivalOf (width : Nat) (i : Instr) : Arrival := .command (encodeAt width i).1 (encodeAt width i).2

/-- `ENCODE` (R79): `ENC_HHDUC`, then `ENC_BQR @HHDUC`. -/
def pseudoEncode (sc de1 de2 de3 : List Byte) : List Instr := [.encHhduc sc de1 de2 de3, .encBqr .hhduc]

/-- `TICKS k` (R79): `k` consecutive `FLK_TICK` events. -/
def pseudoTicks (k : Nat) : List Instr := List.replicate k .flkTick

/-- The pieces of a line. -/
inductive AsmToken where
  | name (cs : List Char)
  | int (n : Nat)
  | bytes (bs : List Byte)
  | comma
deriving DecidableEq, Repr

/-- Where the reader of a line stands: between pieces, in a name or number, in a text string, or in a hexadecimal string; what
it has of the piece so far, in reverse. -/
inductive AsmMode where
  | between
  | name (rev : List Char)
  | text (rev : List Byte)
  | hex (rev : List Byte) (half : Option Nat)
deriving DecidableEq, Repr

/-- The value of a hexadecimal digit. -/
def hexDigit (c : Char) : Option Nat :=
  let n := c.toNat
  if 48 ≤ n ∧ n ≤ 57 then some (n - 48)
  else if 65 ≤ n ∧ n ≤ 70 then some (n - 55)
  else if 97 ≤ n ∧ n ≤ 102 then some (n - 87)
  else none

/-- A number in a base at most 16, from its digits. -/
def asmNumber (base : Nat) (acc : Nat) : List Char → Option Nat
  | [] => some acc
  | c :: cs =>
    match hexDigit c with
    | none => none
    | some d => if d < base then asmNumber base (acc * base + d) cs else none

/-- A name, or a number where it starts with a digit: decimal, or hexadecimal after `0x` (R78). -/
def asmWord (cs : List Char) : Option AsmToken :=
  match cs with
  | '0' :: 'x' :: c :: rest => (asmNumber 16 0 (c :: rest)).map .int
  | c :: _ => if 48 ≤ c.toNat ∧ c.toNat ≤ 57 then (asmNumber 10 0 cs).map .int else some (.name cs)
  | [] => none

/-- Is this the double quote that opens and closes a string? -/
def isQuote (c : Char) : Bool := c.toNat == 34

/-- Is this a space or a tab? -/
def isBlank (c : Char) : Bool := c.toNat == 32 || c.toNat == 9

/-- The pieces of a line, up to a comment (R78). `none`: the text is no line of the syntax. -/
def asmTokens : AsmMode → List Char → Option (List AsmToken)
  | .between, [] => some []
  | .name rev, [] => (asmWord rev.reverse).map fun t => [t]
  | .text _, [] => none
  | .hex _ _, [] => none
  | .between, c :: cs =>
    if isBlank c then asmTokens .between cs
    else if c = ';' then some []
    else if c = ',' then (asmTokens .between cs).map fun ts => .comma :: ts
    else if isQuote c then asmTokens (.text []) cs
    else asmTokens (.name [c]) cs
  | .name rev, c :: cs =>
    if isQuote c then
      if rev = ['x'] then asmTokens (.hex [] none) cs else none
    else if isBlank c || decide (c = ',') || decide (c = ';') then
      match asmWord rev.reverse with
      | none => none
      | some t =>
        if c = ';' then some [t]
        else if c = ',' then (asmTokens .between cs).map fun ts => t :: .comma :: ts
        else (asmTokens .between cs).map fun ts => t :: ts
    else asmTokens (.name (c :: rev)) cs
  | .text rev, c :: cs =>
    if isQuote c then (asmTokens .between cs).map fun ts => .bytes rev.reverse :: ts
    else if c.toNat < 128 then asmTokens (.text (BitVec.ofNat 8 c.toNat :: rev)) cs
    else none
  | .hex rev none, c :: cs =>
    if isQuote c then (asmTokens .between cs).map fun ts => .bytes rev.reverse :: ts
    else if isBlank c then asmTokens (.hex rev none) cs
    else
      match hexDigit c with
      | none => none
      | some d => asmTokens (.hex rev (some d)) cs
  | .hex rev (some h), c :: cs =>
    match hexDigit c with
    | none => none
    | some d => asmTokens (.hex (BitVec.ofNat 8 (16 * h + d) :: rev) none) cs

/-- A byte-string operand: a string, or a buffer's name (R78). -/
def asmSource : AsmToken → Option Source
  | .bytes bs => some (.port bs)
  | .name cs =>
    if cs = "@HHDUC".toList then some .hhduc else if cs = "@BQR".toList then some .bqr else none
  | .int _ => none
  | .comma => none

/-- The commands of a line whose mnemonic and operands are these (R78, R79). -/
def asmCommands (mnemonic : List Char) (ops : List AsmToken) : Option (List Instr) :=
  match ops with
  | [] =>
    if mnemonic = "FLK_START".toList then some [.flkStart]
    else if mnemonic = "FLK_TICK".toList then some [.flkTick]
    else if mnemonic = "FLK_CANCEL".toList then some [.flkCancel]
    else none
  | [.int n] =>
    if mnemonic = "TICKS".toList then some (pseudoTicks n)
    else if mnemonic = "DSUM".toList then some [.dsum n]
    else none
  | [op] =>
    match asmSource op with
    | none => none
    | some src =>
      if mnemonic = "NXOR".toList then some [.nxor src]
      else if mnemonic = "CRC16".toList then some [.crc16 src]
      else if mnemonic = "ENC_BQR".toList then some [.encBqr src]
      else none
  | [.bytes sc, .comma, .bytes de1, .comma, .bytes de2, .comma, .bytes de3] =>
    if mnemonic = "ENC_HHDUC".toList then some [.encHhduc sc de1 de2 de3]
    else if mnemonic = "ENCODE".toList then some (pseudoEncode sc de1 de2 de3)
    else none
  | _ => none

/-- An agent prefix (R78). -/
def asmAgent (cs : List Char) : Option Agent :=
  if cs = "timer:".toList then some .timer else if cs = "cancel:".toList then some .cancellation else none

/-- A line of text to its commands (R78, R79), where `DSUM_WIDTH` is `width`; `none` where it is no line of the syntax, names another agent than the one that
issues the command (R71), or spells no command the interface can deliver (R72, R75). An empty or comment line is no command. -/
def assemble (width : Nat) (line : List Char) : Option (List Instr) :=
  let deliverable (is : List Instr) : Option (List Instr) := if is.all (Instr.wfAt width) then some is else none
  match asmTokens .between line with
  | none => none
  | some [] => some []
  | some (.name cs :: ops) =>
    match asmAgent cs with
    | none => (asmCommands cs ops).bind deliverable
    | some a =>
      match ops with
      | .name m :: rest =>
        (asmCommands m rest).bind fun is => if is.all fun i => i.issuer == a then deliverable is else none
      | _ => none
  | some _ => none

/-- A line of text to what the agents put on the interface. -/
def assembleArrivals (width : Nat) (line : List Char) : Option (List Arrival) :=
  (assemble width line).map fun is => is.map (arrivalOf width)

end Sys2Proof.Machine
end

