-- ==== Sys2Proof/Tests/Slice0.lean ====
section
/-! SUPPORT. Small tests. Expected values are the spec's own: the vectors of spec/95_test_vectors.md (V-..., P...), the values a
rule prints, or the words written out from R71, R72 and R77. -/

namespace Sys2Proof.Tests

open Sys2Proof Sys2Proof.Machine Sys2Proof.Safety

/-! ### Well-formedness: an ill-formed term for each check -/

theorem test_wf_refuses_wide_integer : (Instr.dsum 4294967296).wf = false ∧ (Instr.dsum 4294967295).wf = true := by decide

theorem test_wf_refuses_bqr_of_bqr : (Instr.encBqr .bqr).wf = false := by decide

theorem test_wf_refuses_long_string (s : List Byte) (h : s.length = 65536) :
    (Instr.nxor (.port s)).wf = false := by
  simp [Instr.wf, Instr.wfAt, Source.wf, portString, h]

theorem test_wf_refuses_long_crc_string (s : List Byte) (h : s.length = 65536) :
    (Instr.crc16 (.port s)).wf = false := by
  simp [Instr.wf, Instr.wfAt, Source.wf, portString, h]

theorem test_wf_refuses_long_bqr_string (s : List Byte) (h : s.length = 65536) :
    (Instr.encBqr (.port s)).wf = false := by
  simp [Instr.wf, Instr.wfAt, Source.wf, portString, h]

theorem test_wf_refuses_long_fields (s : List Byte) (h : s.length = 65536) :
    (Instr.encHhduc s [] [] []).wf = false ∧ (Instr.encHhduc [] s [] []).wf = false ∧
    (Instr.encHhduc [] [] s []).wf = false ∧ (Instr.encHhduc [] [] [] s).wf = false := by
  simp [Instr.wf, Instr.wfAt, portString, h]

theorem test_wf_accepts : (Instr.encHhduc [0x31#8] [] [] []).wf = true ∧ (Instr.encBqr .hhduc).wf = true := by decide

/-! ### Decoding: words written out from R71, R72, R77 and operands from R75 -/

/-- `00000001 00 000000`, and 28 in four bytes (P5 line 1). -/
theorem test_decode_dsum :
    decode 0b0000000100000000#16 [0x00#8, 0x00#8, 0x00#8, 0x1C#8] = .command (.dsum 28) := by decide

/-- `00000010 ss 000000` (P5 line 2, P1 line 4). -/
theorem test_decode_nxor :
    decode 0b0000001000000000#16 [0x00#8, 0x03#8, 0x01#8, 0x23#8, 0x45#8] =
      .command (.nxor (.port [0x01#8, 0x23#8, 0x45#8])) ∧
    decode 0b0000001001000000#16 [] = .command (.nxor .hhduc) ∧
    decode 0b0000001010000000#16 [] = .command (.nxor .bqr) ∧
    decode 0b0000001011000000#16 [] = .reserved := by decide

/-- `00000011 ss 000000` (P1 line 3). -/
theorem test_decode_crc16 :
    decode 0b0000001100000000#16 [0x00#8, 0x01#8, 0x41#8] = .command (.crc16 (.port [0x41#8])) ∧
    decode 0b0000001101000000#16 [] = .command (.crc16 .hhduc) ∧
    decode 0b0000001110000000#16 [] = .command (.crc16 .bqr) := by decide

/-- `00010000 00 000000`, four framed strings in the order startcode, de1, de2, de3. -/
theorem test_decode_enc_hhduc :
    decode 0b0001000000000000#16
      [0x00#8, 0x01#8, 0x31#8, 0x00#8, 0x01#8, 0x32#8, 0x00#8, 0x00#8, 0x00#8, 0x02#8, 0x33#8, 0x34#8] =
      .command (.encHhduc [0x31#8] [0x32#8] [] [0x33#8, 0x34#8]) := by decide

/-- `00010001 ss 000000`. -/
theorem test_decode_enc_bqr :
    decode 0b0001000100000000#16 [0x00#8, 0x00#8] = .command (.encBqr (.port [])) ∧
    decode 0b0001000101000000#16 [] = .command (.encBqr .hhduc) ∧
    decode 0b0001000110000000#16 [] = .reserved := by decide

/-- `00100000`, `00100001`, `00100010`, each with `00 000000`. -/
theorem test_decode_transmitter :
    decode 0b0010000000000000#16 [] = .command .flkStart ∧ decode 0b0010000100000000#16 [] = .command .flkTick ∧
    decode 0b0010001000000000#16 [] = .command .flkCancel := by decide

/-- 95_test_vectors.md section 2.1 and R74: reserved `SRC`, non-zero `RSV`, unassigned `OPC`. -/
theorem test_decode_reserved :
    decode 0x0140#16 [] = .reserved ∧ decode 0x0201#16 [] = .reserved ∧ decode 0x0000#16 [] = .reserved ∧
    decode 0x2300#16 [] = .reserved := by decide

/-- A length word most significant byte first (R75): `01 01` announces 257 bytes. -/
theorem test_decode_length_is_big_endian :
    decode 0x1100#16 (0x01#8 :: 0x01#8 :: List.replicate 257 0x00#8) =
      .command (.encBqr (.port (List.replicate 257 0x00#8))) := by decide +kernel

theorem test_decode_incomplete :
    decode 0x0100#16 [0x00#8, 0x00#8, 0x00#8] = .operandShort ∧ decode 0x2000#16 [0x00#8] = .operandLong := by decide

/-- What the host asks of the opcode table's rows. -/
theorem test_decode_table_word :
    decodeTableWord 16 0x0100 = some (.dsum 0) ∧ decodeTableWord 16 0x0200 = some (.nxor (.port [])) ∧
    decodeTableWord 16 0x1000 = some (.encHhduc [] [] [] []) ∧ decodeTableWord 16 0x2100 = some .flkTick := by decide

/-! ### Assembler text (R78, R79; the lines of 95_test_vectors.md section 3) -/

theorem test_assemble_dsum : assemble 32 "DSUM 28 ; digits".toList = some [.dsum 28] := by decide +kernel

theorem test_assemble_nxor :
    assemble 32 "NXOR x\"01 23 45\"".toList = some [.nxor (.port [0x01#8, 0x23#8, 0x45#8])] := by decide +kernel

theorem test_assemble_encode :
    assemble 32 "ENCODE \"1\", \"\", \"\", \"\"".toList =
      some [.encHhduc [0x31#8] [] [] [], .encBqr .hhduc] := by decide +kernel

theorem test_assemble_ticks : assemble 32 "timer: TICKS 2".toList = some [.flkTick, .flkTick] := by decide +kernel

/-- P1 line 1: the word 0x1000 and its `PORT` bytes. -/
theorem test_assemble_arrivals :
    assembleArrivals 32 "ENC_HHDUC \"1\", \"\", \"\", \"\"".toList =
      some [.command 0x1000#16 [0x00#8, 0x01#8, 0x31#8, 0x00#8, 0x00#8, 0x00#8, 0x00#8, 0x00#8, 0x00#8]] := by
  decide +kernel

/-! ### The primitives (95_test_vectors.md section 2.1) -/

theorem test_digit_sum :
    [0, 9, 10, 18, 19, 28, 30, 99, 100, 12345, 3999999999, 4294967295].map digitSum =
      [0, 9, 1, 9, 10, 10, 3, 18, 1, 15, 84, 57] := by decide +kernel

theorem test_luhn_term :
    [0x00#8, 0x01#8, 0x0F#8, 0x30#8, 0x35#8, 0x2C#8, 0x4E#8, 0xC8#8, 0xFE#8, 0xFF#8].map luhnTerm =
      [0, 2, 3, 3, 4, 8, 14, 19, 25, 18] := by decide +kernel

theorem test_nibble_xor :
    nibbleXor [0x01#8, 0x23#8, 0x45#8] = 0x1#4 ∧ nibbleXor [0xA5#8] = 0xF#4 ∧ nibbleXor [0x0F#8, 0xFF#8] = 0xF#4 := by
  decide

theorem test_crc :
    crc16Arc [0xFF#8] = 0x4040#16 ∧ crc16Arc [0x12#8, 0x34#8] = 0x770D#16 ∧
    crc16Arc [0x44#8, 0x4B#8, 0x4E#8] = 0xD1F6#16 := by decide +kernel

/-! ### The encoders (sections 2.2 and 2.3) -/

/-- V-H1's payload, as the spec prints it. -/
def payloadH1 : List Byte := [0x04#8, 0xC1#8, 0x01#8, 0x31#8, 0x3A#8]

/-- V-H1's BQR, as the spec prints it. -/
def bqrH1 : List Byte := [0x44#8, 0x4B#8, 0x0A#8, 0x4F#8, 0x85#8, 0x4A#8, 0x75#8, 0x71#8, 0x12#8, 0xB2#8]

/-- The golden fields of V-H2. -/
def goldenSc : List Byte := [0x38#8, 0x32#8, 0x31#8, 0x31#8, 0x32#8, 0x33#8, 0x34#8, 0x35#8]
def goldenDe1 : List Byte := [0x30#8, 0x31#8, 0x32#8, 0x33#8, 0x34#8, 0x35#8, 0x36#8, 0x37#8, 0x38#8, 0x39#8]
def goldenDe2 : List Byte := [0x31#8, 0x30#8, 0x30#8, 0x2C#8, 0x30#8, 0x30#8]

theorem test_hhduc_golden :
    hhducPayload false goldenSc goldenDe1 goldenDe2 [] =
      [0x1D#8, 0xC8#8, 0x01#8, 0x38#8, 0x32#8, 0x31#8, 0x31#8, 0x32#8, 0x33#8, 0x34#8, 0x35#8, 0x4A#8, 0x30#8, 0x31#8,
       0x32#8, 0x33#8, 0x34#8, 0x35#8, 0x36#8, 0x37#8, 0x38#8, 0x39#8, 0x46#8, 0x31#8, 0x30#8, 0x30#8, 0x2C#8, 0x30#8,
       0x30#8, 0x02#8] := by decide +kernel

/-- The golden checksum under the other value of `LUHN_COVERS_LDE` (spec/90_conflicts.md C5). -/
theorem test_hhduc_golden_lde_counted : hhducChecksum true goldenSc goldenDe1 goldenDe2 [] = 0x72#8 := by decide +kernel

/-- V-H3, V-H6, V-H8, V-H10: the last bytes. -/
theorem test_hhduc_checksums :
    hhducChecksum false [0x31#8, 0x32#8] [0x33#8, 0x34#8] [0x35#8, 0x36#8] [0x37#8, 0x38#8] = 0x8F#8 ∧
    hhducChecksum false [0x31#8] [] [] [0x35#8] = 0x9B#8 ∧ hhducChecksum false [0xFF#8] [] [] [] = 0x08#8 ∧
    hhducChecksum false [0x31#8] (List.replicate 74 0x41#8) [] [] = 0x9B#8 := by decide +kernel

/-- V-H13 and V-H14: 256 bytes are accepted, 257 are not. -/
theorem test_hhduc_limit :
    hhducCheck (List.replicate 63 0x31#8) (List.replicate 127 0x32#8) (List.replicate 60 0x33#8) [] = none ∧
    hhducCheck (List.replicate 63 0x31#8) (List.replicate 127 0x32#8) (List.replicate 61 0x33#8) [] =
      some .hhducTooLarge := by decide +kernel

/-- V-B1, V-B2 and V-H1's BQR. -/
theorem test_bqr :
    maskDK (bqrPre []) = [0x44#8, 0x4B#8, 0x0A#8, 0x9A#8, 0xB2#8] ∧
    maskDK (bqrPre [0x00#8]) = [0x44#8, 0x4B#8, 0x0A#8, 0x4B#8, 0x02#8, 0x1A#8] ∧
    maskDK (bqrPre payloadH1) = bqrH1 := by decide +kernel

theorem test_check_bqr : checkBqr bqrH1 = (true, payloadH1) := by decide +kernel

/-! ### One command on a small state -/

/-- The state after an outcome; the state before it where the machine stopped. -/
def after (o : Host.Outcome State Fault Refusal) (s : State) : State :=
  match o with
  | .next t => t
  | .fault _ => s
  | .refused _ => s

/-- A command on a state. -/
def does (i : Instr) (s : State) : State := after (exec i s) s

/-- READY and IDLE with V-H1 in `HHDUC`. -/
def loaded : State := { State.reset with hhduc := Memory.ofBytes payloadH1 }

/-- RUNNING at the initial cursor with V-H1. -/
def running : State := { loaded with txState := .running, txLen := 5#9 }

/-- ABORTED by V-E1. -/
def abortedState : State := { State.reset with err := 0x11#8, unitState := .aborted }

theorem test_dsum : (does (.dsum 28) State.reset).result = 0x000A#16 ∧ (does (.dsum 28) State.reset).resultValid = true := by
  decide

/-- V-E2. -/
theorem test_dsum_after_end : does (.dsum 5) abortedState = { abortedState with refused := some .afterEnd } := by decide

theorem test_nxor_hhduc : (does (.nxor .hhduc) loaded).result = 0x0003#16 := by decide +kernel

theorem test_nxor_empty : does (.nxor .hhduc) State.reset = { State.reset with fault := some .unwritten } := by decide

/-- P1 line 3. -/
theorem test_crc16_hhduc : (does (.crc16 .hhduc) loaded).result = 0x7F08#16 := by decide +kernel

/-- P1 line 1. -/
theorem test_enc_hhduc : does (.encHhduc [0x31#8] [] [] []) State.reset = loaded := by decide +kernel

/-- V-E1: `ERR` 0x11, `STATUS` 0x81. -/
theorem test_enc_hhduc_empty :
    (does (.encHhduc [] [0x31#8] [] []) State.reset).err = 0x11#8 ∧
    (does (.encHhduc [] [0x31#8] [] []) State.reset).status = 0x81#8 := by decide

/-- P1 line 2. -/
theorem test_enc_bqr : (does (.encBqr .hhduc) loaded).bqr = Memory.ofBytes bqrH1 := by decide +kernel

/-- V-B5. -/
theorem test_enc_bqr_too_large :
    (does (.encBqr (.port (List.replicate 257 0x00#8))) State.reset).err = 0x72#8 := by decide +kernel

theorem test_flk_start : does .flkStart loaded = running := by decide

/-- P6 line 3. -/
theorem test_flk_start_cancelled :
    (does .flkStart { loaded with cancelPending := true }).txState = .stopped := by decide

/-- R187's example: the first tick emits (1, 0xF) and leaves cursor (0, 1, 0). -/
theorem test_flk_tick :
    (does .flkTick running).frames = [⟨true, 0xF#4⟩] ∧ (does .flkTick running).byteIndex = 0#9 ∧
    (does .flkTick running).lowHalfPending = true ∧ (does .flkTick running).clockHigh = false := by decide

/-- V-F1, tick 28: the last frame of the cycle and the wrap. -/
theorem test_flk_tick_wraps :
    let s := does .flkTick { running with byteIndex := 6#9, lowHalfPending := false, clockHigh := false }
    s.lastFrame = some ⟨false, 0x3#4⟩ ∧ s.byteIndex = 0#9 ∧ s.lowHalfPending = true ∧ s.clockHigh = true := by decide

theorem test_flk_cancel :
    (does .flkCancel running).txState = .stopped ∧ (does .flkCancel State.reset).txState = .idle ∧
    (does .flkCancel State.reset).cancelPending = true := by decide

/-! ### One step -/

/-- The state after one step. -/
def stepped (s : State) : State := after (step s) s

theorem test_step_from_reset_waits : stepped State.reset = State.reset := by decide

/-- V-E3: a refusal does not stop later commands. -/
theorem test_step_reserved :
    (stepped (State.reset.withFetchWord 16 0x0140)).refused = some .invalidCmd ∧
    (stepped (State.reset.withFetchWord 16 0x0140)).fault = none := by decide

theorem test_step_fetch_word :
    stepped (State.reset.withFetchWord 16 0x0300) = { State.reset with resultValid := true } := by decide

theorem test_step_read_status :
    (stepped { loaded with arrivals := [.read .status] }).readback = some (.byte 0x08#8) := by decide

theorem test_step_read_unwritten :
    (stepped { State.reset with arrivals := [.read .result] }).fault = some .unwritten := by decide

theorem test_step_reset : stepped { abortedState with arrivals := [.reset] } = State.reset := by decide

/-! ### Witnesses: states and operands that meet the hypotheses of the statements -/

theorem witness_runs : runs State.reset ∧ runs loaded ∧ runs running ∧ 32 ≤ 7280 ∧ 28 < 2 ^ 32 := by decide

theorem running_inv : StateInv running where
  hhduc := by decide
  bqr := by decide
  running := by decide
  cancelRunning := by decide
  cancelStopped := by decide
  err := by decide
  aborted := by decide

/-- `EncodedCommandDecodesToItself`, `DecodedCommandEncodesBack`. -/
theorem witness_round_trip :
    (Instr.nxor (.port [0x01#8])).wf = true ∧
    decode 0x0200#16 [0x00#8, 0x01#8, 0x01#8] = .command (.nxor (.port [0x01#8])) := by decide

/-- `ReservedWordIsRefused`: first and last unassigned numbers beside an assigned one. -/
theorem witness_reserved :
    ({ State.reset with arrivals := [.command 0x0001#16 []] } : State).fault = none ∧
    0x0001#16 ∉ legalWords ∧ 0x04C0#16 ∉ legalWords ∧ 0x2300#16 ∉ legalWords ∧ 0xFFFF#16 ∉ legalWords := by decide

/-- `StepRunsTheDecodedCommand`. -/
theorem witness_step :
    (State.reset.withFetchWord 16 0x0100).arrivals = [.command 0x0100#16 [0#8, 0#8, 0#8, 0#8]] ∧
    (State.reset.withFetchWord 16 0x0100).fault = none ∧
    decode 0x0100#16 [0#8, 0#8, 0#8, 0#8] = .command (.dsum 0) := by decide

/-- `FaultedBlockTakesNoFurtherStep`, `ResetInputAndWaiting`. -/
theorem witness_faulted :
    ({ State.reset with fault := some .txBusy, arrivals := [.command 0x2100#16 []] } : State).fault ≠ none ∧
    ({ State.reset with arrivals := [.reset] } : State).arrivals = [.reset] ∧ State.reset.arrivals = [] := by decide

/-- `IncompleteOperandStops`: one byte short of, and one byte past, the operand. -/
theorem witness_incomplete :
    decode 0x0200#16 [0x00#8, 0x01#8] = .operandShort ∧
    decode 0x0200#16 [0x00#8, 0x01#8, 0x41#8, 0x00#8] = .operandLong := by decide

/-- `NxorWritesTheReduction`, `Crc16WritesTheCrc`, `EncBqrWritesThePayload`: each source. -/
theorem witness_delivers :
    delivers (.port []) [] State.reset ∧ delivers .hhduc payloadH1 loaded ∧
    delivers .bqr bqrH1 { loaded with bqr := Memory.ofBytes bqrH1 } ∧ payloadH1.length ≤ 256 :=
  ⟨rfl, ⟨by decide, by decide⟩, ⟨by decide, by decide⟩, by decide⟩

/-- `CrcIsLinear`, `NibbleXorIgnoresOrder`. -/
theorem witness_strings :
    [0x01#8, 0x02#8].length = [0x03#8, 0x04#8].length ∧ [0x01#8, 0x02#8].Perm [0x02#8, 0x01#8] :=
  ⟨rfl, List.Perm.swap _ _ _⟩

/-- `EmptyBufferIsAFault`. -/
theorem witness_empty :
    runs State.reset ∧ State.reset.hhduc = [] ∧ State.reset.bqr = [] ∧ State.reset.txState = .idle := by decide

/-- `EncHhducWritesThePayload` and the payload statements: the smallest fields, and the largest accepted payload (V-H13). -/
theorem witness_accepted :
    runs State.reset ∧ State.reset.txState = .idle ∧ accepted [0x31#8] [] [] [] ∧
    accepted (List.replicate 63 0x31#8) (List.replicate 127 0x32#8) (List.replicate 60 0x33#8) [] := by
  refine ⟨by decide, by decide, ?_, ?_⟩ <;> (unfold accepted; decide +kernel)

/-- `EncHhducRejections`: each clause at the boundary of its range (V-H15 to V-H18, and `de2`; V-H14). -/
theorem witness_rejections :
    ([] : List Byte).length = 0 ∧ 63 < (List.replicate 64 0x31#8 : List Byte).length ∧
    127 < (List.replicate 128 0x32#8 : List Byte).length ∧
    256 < payloadSize (List.replicate 63 0x31#8) [List.replicate 127 0x32#8, List.replicate 61 0x33#8, []] := by
  decide +kernel

/-- `LdeFlagOverlapsTheLength`: lengths 1, 63, 64 and 127. -/
theorem witness_lde :
    [1, 63, 64, 127].map (fun n => ldeByte (List.replicate n 0x41#8)) = [0x41#8, 0x7F#8, 0x40#8, 0x7F#8] := by
  decide +kernel

/-- `EncBqrRejections`: 257 bytes. -/
theorem witness_bqr_too_large :
    runs State.reset ∧ delivers (.port (List.replicate 257 0x00#8)) (List.replicate 257 0x00#8) State.reset ∧
    256 < (List.replicate 257 0x00#8 : List Byte).length := by
  exact ⟨by decide, rfl, by decide +kernel⟩

/-- `BqrPayloadLayout`, `ReceiverRecoversTheInput`: the smallest and the largest input. -/
theorem witness_bqr_ok :
    (∃ q, encodeBqr [] = .ok q) ∧ ∃ q, encodeBqr (List.replicate 256 0xFF#8) = .ok q :=
  ⟨⟨_, rfl⟩, ⟨_, encodeBqr_eq_ok.2 ⟨by decide +kernel, rfl⟩⟩⟩

/-- `FlkStartLoadsTheCursor`, with and without a latched cancellation. -/
theorem witness_start :
    loaded.fault = none ∧ loaded.unitState = .ready ∧ loaded.txState = .idle ∧ loaded.hhduc ≠ [] ∧
    ({ loaded with cancelPending := true } : State).hhduc ≠ [] := by decide

/-- `RunningTransmitterIsBusy`, `FlkTickEmitsAndAdvances`, `CancelAndTickInEitherOrder`, `NibbleIsHeldForTwoFrames`,
`TicksFollowTheClosedForm`, `CycleLength`, `StartMarkerFrames`. -/
theorem witness_running :
    StateInv running ∧ ticks running ∧ cursorInitial running ∧ streamByte running.byteIndex.toNat running = some 0x0F#8 :=
  ⟨running_inv, by decide, by decide, by decide⟩

/-- `FlkTickEmitsAndAdvances` at the last byte of the payload, where the index wraps. -/
theorem witness_running_last :
    StateInv { running with byteIndex := 6#9, lowHalfPending := false, clockHigh := false } ∧
    ticks { running with byteIndex := 6#9, lowHalfPending := false, clockHigh := false } :=
  ⟨⟨by decide, by decide, by decide, by decide, by decide, by decide, by decide⟩, by decide⟩

/-- `TickElsewhereHasNoEffect`, `FlkCancelLatchesAndStops`, `NothingIsEmittedAfterTheEnd`, `AfterTheEndOfRun`. -/
theorem witness_ended :
    ¬ ticks State.reset ∧ abortedState.ended = true ∧ abortedState.fault = none ∧
    ({ running with txState := .stopped, cancelPending := true } : State).ended = true ∧
    (Instr.dsum 5).wf = true ∧ Instr.flkTick.wf = true := by decide

/-- `MarksAreSticky`, `EndOfRunIsFinal`, `EveryStepKeepsTheInvariant`, `EveryStepKeepsTheStream`. -/
theorem witness_any_step :
    step { abortedState with arrivals := [.command 0x2100#16 []] } = .next abortedState ∧
    ({ abortedState with arrivals := [.command 0x2100#16 []] } : State).arrivals.head? ≠ some .reset :=
  ⟨rfl, by decide⟩

theorem aborted_inv : StateInv { abortedState with arrivals := [.command 0x2100#16 []] } :=
  ⟨by decide, by decide, by decide, by decide, by decide, by decide, by decide⟩

theorem aborted_stream : StreamInv { abortedState with arrivals := [.command 0x2100#16 []] } :=
  ⟨by decide, by decide, by decide, fun h => absurd rfl h, by decide⟩

/-- A transmission under way meets the stream invariant too. -/
theorem running_stream : StreamInv running :=
  ⟨by decide, by decide, by decide, fun _ => ⟨by decide, by decide, by decide⟩, by decide⟩

/-- The frame statements: each command answers a next state on these. -/
theorem witness_frames :
    exec (.dsum 28) State.reset = .next (does (.dsum 28) State.reset) ∧
    exec (.encHhduc [0x31#8] [] [] []) State.reset = .next (does (.encHhduc [0x31#8] [] [] []) State.reset) ∧
    exec (.encBqr .hhduc) loaded = .next (does (.encBqr .hhduc) loaded) ∧
    exec .flkTick running = .next (does .flkTick running) := ⟨rfl, rfl, rfl, rfl⟩

/-- `StatusBits`, `HostReadsGiveValues`: a read of `STATUS`. -/
theorem witness_status_read :
    ({ running with arrivals := [.read .status] } : State).arrivals = [.read .status] ∧ running.status = 0x0A#8 := by decide

/-- `HostReadsGiveValues`: a read for each clause. -/
theorem witness_reads :
    memRead .hhduc (4#9 : Offset).toNat loaded = some 0x3A#8 ∧
    memRead .bqr (9#9 : Offset).toNat { loaded with bqr := Memory.ofBytes bqrH1 } = some 0xB2#8 ∧
    (does (.dsum 28) State.reset).resultValid = true := by decide

/-- `HostReadOfNothingIsAFault`: unwritten `RESULT`, and the first offset past the payload. -/
theorem witness_reads_of_nothing :
    loaded.resultValid = false ∧ loaded.hhduc.length ≤ (5#9 : Offset).toNat ∧ loaded.bqr.length ≤ (0#9 : Offset).toNat ∧
    ({ loaded with arrivals := [.read .result] } : State).arrivals = [.read .result] := by decide

theorem loaded_inv : StateInv { loaded with arrivals := [.read .result] } :=
  ⟨by decide, by decide, by decide, by decide, by decide, by decide, by decide⟩

/-! ### Parameters (R9, R35) -/

/-- The parameters with the other reading of R140 and a width that is no whole number of bytes. -/
def otherParams : Config.Params := { Config.chosen with luhnCoversLde := true, dsumWidth := 12 }

/-- The golden payload's checksum byte under `LUHN_COVERS_LDE = true`, by the step relation's own parameter (90_conflicts.md C5). -/
theorem test_param_luhn :
    (match execAt otherParams (.encHhduc goldenSc goldenDe1 goldenDe2 []) State.reset with
      | .next s => memRead .hhduc 29 s
      | .fault _ => none
      | .refused _ => none) = some 0x72#8 := by decide +kernel

/-- R75 at 12 bits: 2 bytes, the largest integer, and one beyond it. -/
theorem test_param_dsum_width :
    decodeAt 12 0x0100#16 [0x0F#8, 0xFF#8] = .command (.dsum 4095) ∧
    decodeAt 12 0x0100#16 [0x10#8, 0x00#8] = .operandRange := by decide

/-- `IncompleteOperandStops`: its last clause. -/
theorem witness_operand_range :
    decodeAt otherParams.dsumWidth 0x0100#16 [0x10#8, 0x00#8] = .operandRange ∧
    ({ State.reset with arrivals := [.command 0x0100#16 [0x10#8, 0x00#8]] } : State).fault = none := by decide

/-! ### The end of a run and the launch premises (R216, R223) -/

/-- P2: a refusal after the end leaves the run's successful end as it was. -/
theorem test_end_before_refusal (p : Config.Params) :
    runExitStatus p 2 { running with arrivals := [cancelArrival, .command 0x0100#16 [0#8, 0#8, 0#8, 5#8]] } = some 0 := rfl

/-- R223: with a refusal before the cancellation the run ends in neither way. -/
theorem test_no_end_after_refusal (p : Config.Params) :
    runExitStatus p 2 { running with refused := some .invalidCmd, arrivals := [cancelArrival] } = none := rfl

/-- P3: the host status of an aborted run. -/
theorem test_aborted_status (p : Config.Params) : exitStatus p abortedState = some p.exitFailureCode := rfl

/-- R215 and R243: what the host may and must not do, where. -/
theorem test_duties :
    commandDuty .flkStart State.reset = false ∧ commandDuty .flkStart loaded = true ∧
    commandDuty .flkStart running = false ∧ commandDuty (.encHhduc [0x31#8] [] [] []) running = false ∧
    commandDuty (.encHhduc [0x31#8, 0x0A#8] [] [] []) State.reset = false ∧
    commandDuty (.encBqr .hhduc) State.reset = false ∧ commandDuty (.encHhduc [0x31#8] [] [] []) abortedState = false ∧
    keepsDuties Config.chosen (.command 0x0200#16 [0x00#8, 0x01#8]) State.reset = false := by decide

/-- One encoding and nothing else: a schedule that meets the launch premises. -/
def encodeOnce : Schedule := fun n =>
  if n = 0 then some (.command 0x1000#16 [0x00#8, 0x01#8, 0x31#8, 0x00#8, 0x00#8, 0x00#8, 0x00#8, 0x00#8, 0x00#8]) else none

theorem witness_launch : Launch Config.chosen encodeOnce State.reset where
  reset_state := rfl
  no_fault := rfl
  no_refusal := rfl
  host_duties := by
    intro n t a ht ha
    cases n with
    | zero =>
      cases ht
      cases ha
      decide
    | succ n => simp [encodeOnce] at ha

/-- A tick and a cancellation in turn, for ever: both fairness premises hold, in a state that transmits. -/
theorem witness_fair :
    transmits running ∧ timerFair Config.chosen (fun n => if n % 2 = 0 then some tickArrival else some cancelArrival) running ∧
    cancelFair Config.chosen (fun n => if n % 2 = 0 then some tickArrival else some cancelArrival) running := by
  refine ⟨by decide, fun n _ _ _ => ?_, fun n _ _ _ => ?_⟩
  · by_cases h : n % 2 = 0
    · exact ⟨n, le_refl _, .inl (by simp [h])⟩
    · exact ⟨n + 1, by omega, .inl (by simp [show (n + 1) % 2 = 0 by omega])⟩
  · by_cases h : n % 2 = 0
    · exact ⟨n + 1, by omega, by simp [show (n + 1) % 2 = 1 by omega]⟩
    · exact ⟨n, le_refl _, by simp [h]⟩

end Sys2Proof.Tests
end

section
/-! SUPPORT. Everything a step can do, said once: the listed effects with what must hold for each, and that every command, event
and host read comes to one of them. -/

namespace Sys2Proof.Machine
open Sys2Proof.Safety

/-! ### Everything a command, event or host read can do -/

/-- One change of the block's state, with what must hold for it to be made: every command, event and host read comes to one of
these (`execAt_effect`, `stepAt_effect`), so a property that each of them keeps is kept by every step but a reset. -/
inductive Effect (coversLde : Bool) (s : State) : State → Prop where
  | unchanged : Effect coversLde s s
  | fault (m : FaultMark) : Effect coversLde s (recordFault m s)
  | refusal (m : RefusalMark) : Effect coversLde s (recordRefusal m s)
  | readValue (v : HostValue) : Effect coversLde s { s with readback := some v }
  | readNothing : Effect coversLde s (recordFault .unwritten { s with readback := none })
  | result (v : Word) : runs s → Effect coversLde s (writeResult v s)
  | hhduc (sc de1 de2 de3 : List Byte) : runs s → s.txState = .idle → accepted sc de1 de2 de3 →
      Effect coversLde s (writeHhduc (hhducPayload coversLde sc de1 de2 de3) s)
  | bqr (h : List Byte) : runs s → h.length ≤ 256 → Effect coversLde s (writeBqr (maskDK (bqrPre h)) s)
  | error (c : ErrorCause) : runs s → Effect coversLde s (raise c s)
  | start : runs s → s.txState = .idle → s.hhduc ≠ [] →
      Effect coversLde s { loadCursor s with txState := if s.cancelPending then .stopped else .running }
  | frame (cur : Byte) : ticks s → streamByte s.byteIndex.toNat s = some cur →
      Effect coversLde s (advanceCursor (emit (currentFrame cur s) s))
  | cancelled : runs s → Effect coversLde s
      { s with cancelPending := true, txState := if s.txState = .running then .stopped else s.txState }

/-- Before the end of a run a transmitter that is not RUNNING is IDLE (R27). -/
theorem idle_of_runs {s : State} (hr : runs s) (h : s.txState ≠ .running) : s.txState = .idle := by
  obtain ⟨-, -, hs⟩ := hr
  cases ht : s.txState <;> simp_all

theorem runs_of_not_ended {s : State} (hf : s.fault = none) (he : s.ended = false) : runs s := by
  obtain ⟨hu, ht⟩ := (ended_eq_false s).1 he
  refine ⟨hf, ?_, ht⟩
  cases h : s.unitState <;> simp_all

section

variable {c : Bool} {s t : State}

/-- A host command has an effect if its body has one where the state admits host commands. -/
theorem hostCommand_effect {body : State → State} (h : runs s → Effect c s (body s)) :
    Effect c s (hostCommand body s) := by
  obtain ⟨-, e⟩ | ⟨-, -, e⟩ | ⟨hr, e⟩ := hostCommand_cases body s <;> rw [e]
  · exact .unchanged
  · exact .refusal _
  · exact h hr

theorem withSource_effect {src : Source} {body : List Byte → State → State}
    (h : ∀ bytes, delivers src bytes s → Effect c s (body bytes s)) : Effect c s (withSource src body s) := by
  obtain ⟨bytes, hd, e⟩ | ⟨-, e⟩ := withSource_cases src body s <;> rw [e]
  · exact h bytes hd
  · exact .fault _

theorem encHhducBody_effect (sc de1 de2 de3 : List Byte) (hr : runs s) :
    Effect c s (encHhducBody c sc de1 de2 de3 s) := by
  unfold encHhducBody encodeHhduc
  split
  · exact .fault _
  · next ht =>
    cases hc : hhducCheck sc de1 de2 de3 with
    | some cause => exact .error cause hr
    | none => exact .hhduc _ _ _ _ hr (idle_of_runs hr ht) ((hhducCheck_eq_none ..).1 hc)

theorem storeBqr_effect (h : List Byte) (hr : runs s) : Effect c s (storeBqr (encodeBqr h) s) := by
  cases he : encodeBqr h with
  | error cause => exact .error cause hr
  | ok q =>
    obtain ⟨hl, rfl⟩ := encodeBqr_eq_ok.1 he
    exact .bqr h hr hl

theorem startBody_effect (hr : runs s) : Effect c s (startBody s) := by
  unfold startBody
  split
  · exact .fault _
  · next ht =>
    split
    · next hv => exact .start hr (idle_of_runs hr ht) ((hhducValid_eq_true s).1 hv)
    · exact .fault _

theorem tick_effect (h : ticks s) : Effect c s (tick s) := by
  obtain ⟨cur, hcur, e⟩ | ⟨-, e⟩ := tick_cases s <;> rw [e]
  · exact .frame cur h hcur
  · exact .fault _

theorem cancel_effect (hf : s.fault = none) : Effect c s (cancel s) := by
  unfold cancel
  split
  · exact .unchanged
  · next he => exact .cancelled (runs_of_not_ended hf (by simpa using he))

theorem reservedWord_effect : Effect c s (reservedWord s) := by
  by_cases hf : s.fault = none
  · rw [reservedWord, unlessFaulted_of_none _ hf]; exact .refusal _
  · rw [reservedWord, unlessFaulted_of_some _ hf]; exact .unchanged

/-- Every command's effect is one of those listed. -/
theorem execAt_effect {p : Config.Params} {i : Instr} (h : execAt p i s = .next t) : Effect p.luhnCoversLde s t := by
  cases i with
  | dsum n => cases h; exact hostCommand_effect (.result _)
  | nxor src => cases h; exact hostCommand_effect fun hr => withSource_effect fun _ _ => .result _ hr
  | crc16 src => cases h; exact hostCommand_effect fun hr => withSource_effect fun _ _ => .result _ hr
  | encHhduc sc de1 de2 de3 => cases h; exact hostCommand_effect (encHhducBody_effect sc de1 de2 de3)
  | encBqr src =>
    cases h
    split
    · exact reservedWord_effect
    · exact hostCommand_effect fun hr => withSource_effect fun bytes _ => storeBqr_effect bytes hr
  | flkStart => cases h; exact hostCommand_effect startBody_effect
  | flkTick =>
    cases h
    split
    · next ht => exact tick_effect ht
    · exact .unchanged
  | flkCancel =>
    cases h
    by_cases hf : s.fault = none
    · rw [unlessFaulted_of_none _ hf]; exact cancel_effect hf
    · rw [unlessFaulted_of_some _ hf]; exact .unchanged

theorem hostRead_effect (r : HostRead) : Effect c s (hostRead r s) := by
  obtain ⟨v, -, e⟩ | ⟨-, e⟩ := hostRead_cases r s <;> rw [e]
  · exact .readValue v
  · exact .readNothing

/-- A step that answers a next state resets the block where the reset input arrived, and otherwise has one of the effects on the
state without what it took. -/
theorem stepAt_effect {p : Config.Params} (h : stepAt p s = .next t) :
    (s.arrivals.head? = some .reset ∧ ∃ rest, t = { State.reset with arrivals := rest }) ∨
    (s.arrivals.head? ≠ some .reset ∧ ∃ rest, Effect p.luhnCoversLde { s with arrivals := rest } t) := by
  obtain ⟨ha, rfl⟩ | ⟨a, rest, ha, hr⟩ := stepAt_next h
  · exact .inr ⟨by simp [ha], t.arrivals, .unchanged⟩
  · simp only [ha, List.head?_cons, ne_eq, Option.some.injEq]
    obtain ⟨w, port, rfl, he⟩ | ⟨r, rfl, rfl⟩ | ⟨rfl, rfl⟩ := runArrival_next hr
    · refine .inr ⟨by simp, rest, ?_⟩
      obtain ⟨-, rfl⟩ | ⟨-, i, -, hi⟩ | ⟨-, -, rfl⟩ := he
      · exact .unchanged
      · exact execAt_effect hi
      · exact .refusal _
    · exact .inr ⟨by simp, rest, hostRead_effect r⟩
    · exact .inl ⟨rfl, rest, rfl⟩

end

end Sys2Proof.Machine
end

section
/-! SUPPORT. The invariants of R41 and R192 under each effect, from the facts about the encoders, the cursor and the closed form
they lean on. -/

namespace Sys2Proof.Safety
open Sys2Proof.Machine

theorem hhducInv_payload (covers : Bool) {sc de1 de2 de3 : List Byte} (h : accepted sc de1 de2 de3) :
    hhducInv (Memory.ofBytes (hhducPayload covers sc de1 de2 de3)) := by
  refine ⟨ofBytes_wf _, fun _ => ?_⟩
  obtain ⟨hsc, -, -, -, -, hsize⟩ := h
  have hmin : 5 ≤ payloadSize sc [de1, de2, de3] := by simp only [payloadSize]; omega
  rw [ofBytes_length, hhducPayload_length, ofBytes_read]
  exact ⟨by rwa [hhducSize_eq], by rwa [hhducSize_eq], by simp [hhducPayload, hhducBody]⟩

theorem bqrInv_payload {h : List Byte} (hl : h.length ≤ 256) : bqrInv (Memory.ofBytes (maskDK (bqrPre h))) := by
  refine ⟨ofBytes_wf _, fun _ => ?_⟩
  rw [ofBytes_length, maskDK_length, bqrPre_length]
  exact ⟨by omega, by omega, by rw [ofBytes_read, maskDK_getElem?]; rfl, by rw [ofBytes_read, maskDK_getElem?]; rfl⟩

theorem errLegal_err (c : ErrorCause) : errLegal c.err := by cases c <;> decide

theorem err_ne_zero (c : ErrorCause) : c.err ≠ 0x00#8 := by cases c <;> decide

/-- A payload's length fits `HHDUC_LEN` (R22). -/
theorem hhducLen_toNat {s : State} (h : hhducInv s.hhduc) : s.hhducLen.toNat = s.hhduc.length := by
  have hle : s.hhduc.length ≤ 256 := by
    by_cases hm : s.hhduc = []
    · simp [hm]
    · exact (h.2 hm).2.1
  simp only [State.hhducLen, BitVec.toNat_ofNat]
  omega

/-- The next index in numbers (R183 step 4): no bit is lost while the stream's length fits 9 bits. -/
theorem nextIndex_toNat {s : State} (hi : s.byteIndex.toNat ≤ s.txLen.toNat + 1) (hl : s.txLen.toNat ≤ 256) :
    (nextIndex s).toNat =
      if s.byteIndex.toNat + 1 = s.txLen.toNat + 2 then 0 else s.byteIndex.toNat + 1 := by
  unfold nextIndex
  split
  · rfl
  · rw [BitVec.toNat_ofNat]; omega

theorem nextIndex_emit (f : Frame) (s : State) : nextIndex (emit f s) = nextIndex s := rfl

/-! ### The invariant of R41 -/

theorem stateInv_reset (rest : List Arrival) : StateInv { State.reset with arrivals := rest } where
  hhduc := ⟨nil_wf, by simp [State.reset]⟩
  bqr := ⟨nil_wf, by simp [State.reset]⟩
  running := by simp [State.reset]
  cancelRunning := by simp [State.reset]
  cancelStopped := by simp [State.reset]
  err := .inl rfl
  aborted := by simp [State.reset]

/-- The invariant does not speak of the interface. -/
theorem StateInv.withArrivals {s : State} (h : StateInv s) (rest : List Arrival) : StateInv { s with arrivals := rest } :=
  { h with }

theorem StateInv.txLen_le {s : State} (h : StateInv s) (hr : s.txState = .running) : s.txLen.toNat ≤ 256 := by
  obtain ⟨hne, hlen, -⟩ := h.running hr
  have := (h.hhduc.2 hne).2.1
  omega

/-- Starting the transmitter keeps the invariant: the cursor is loaded, and a latched cancellation stops it at once (R186). -/
theorem StateInv.start {s : State} (h : StateInv s) (hm : s.hhduc ≠ []) :
    StateInv { loadCursor s with txState := if s.cancelPending then .stopped else .running } :=
  { h with
    running := fun _ => ⟨hm, hhducLen_toNat h.hhduc, Nat.zero_le _⟩
    cancelRunning := by cases hc : s.cancelPending <;> simp [hc]
    cancelStopped := by cases hc : s.cancelPending <;> simp [hc] }

/-- A taken tick keeps the invariant: the index stays within the stream (R183). -/
theorem StateInv.frame {s : State} (h : StateInv s) (f : Frame) (hr : s.txState = .running) :
    StateInv (advanceCursor (emit f s)) := by
  obtain ⟨hne, hlen, hi⟩ := h.running hr
  have hindex : (advanceCursor (emit f s)).byteIndex.toNat ≤ s.txLen.toNat + 1 := by
    rw [advanceCursor_byteIndex, nextIndex_emit, apply_ite BitVec.toNat, nextIndex_toNat hi (h.txLen_le hr), emit_byteIndex]
    split_ifs <;> omega
  rw [advanceCursor_eq] at hindex ⊢
  exact { h with running := fun _ => ⟨hne, hlen, hindex⟩ }

/-- A cancellation that is taken keeps the invariant: it is latched, and the transmitter no longer runs (R188). -/
theorem StateInv.cancelled {s : State} (h : StateInv s) :
    StateInv { s with cancelPending := true, txState := if s.txState = .running then .stopped else s.txState } :=
  { h with
    running := by cases ht : s.txState <;> simp
    cancelRunning := by cases ht : s.txState <;> simp
    cancelStopped := fun _ => rfl }

/-- Every effect keeps the invariant of R41. -/
theorem effect_keeps_stateInv {c : Bool} {s t : State} (e : Effect c s t) (h : StateInv s) : StateInv t := by
  cases e with
  | hhduc sc de1 de2 de3 _ ht ha =>
    have hnot : s.txState ≠ .running := by simp [ht]
    exact { h with hhduc := hhducInv_payload c ha, running := fun hr => absurd hr hnot }
  | bqr b _ hl => exact { h with bqr := bqrInv_payload hl }
  | error cause _ => exact { h with err := errLegal_err cause, aborted := by simp [err_ne_zero] }
  | start _ _ hm => exact h.start hm
  | frame cur ht _ => exact h.frame _ ht.1
  | cancelled _ => exact h.cancelled
  | unchanged | fault | refusal | readValue | readNothing | result => exact { h with }

theorem stepAt_keeps_stateInv {p : Config.Params} {s t : State} (h : StateInv s) (hs : stepAt p s = .next t) : StateInv t := by
  obtain ⟨-, rest, rfl⟩ | ⟨-, rest, e⟩ := stepAt_effect hs
  · exact stateInv_reset rest
  · exact effect_keeps_stateInv e (h.withArrivals rest)

/-! ### The stream invariant -/

theorem streamInv_reset (rest : List Arrival) : StreamInv { State.reset with arrivals := rest } where
  idle := by simp [State.reset]
  length := by simp [State.reset]
  sent := by simp [State.reset]
  cursor := by simp [State.reset]
  last := rfl

theorem StreamInv.withArrivals {s : State} (h : StreamInv s) (rest : List Arrival) : StreamInv { s with arrivals := rest } :=
  { h with cursor := fun ht => { h.cursor ht with } }

theorem framesUpTo_succ (payload : List Byte) (k : Nat) :
    framesUpTo payload (k + 1) = framesUpTo payload k ++ [frameAt payload k] := by
  simp [framesUpTo, List.range_succ]

/-- One place further in a cycle: on by one, or back to its beginning. -/
theorem succ_mod_cycleFrames (payload : List Byte) (k : Nat) :
    (k + 1) % cycleFrames payload =
      if k % cycleFrames payload + 1 = cycleFrames payload then 0 else k % cycleFrames payload + 1 := by
  have hlt : k % cycleFrames payload < cycleFrames payload := Nat.mod_lt _ (by simp [cycleFrames])
  rw [← Nat.mod_add_mod]
  split
  · next h => rw [h, Nat.mod_self]
  · exact Nat.mod_eq_of_lt (by omega)

/-- A cycle is whole bytes of four frames each (R189), so the phases within a byte do not see it. -/
theorem mod_cycleFrames_mod_four (payload : List Byte) (k : Nat) : k % cycleFrames payload % 4 = k % 4 :=
  Nat.mod_mod_of_dvd _ (Dvd.intro _ rfl)

/-- The frame a tick emits is that of the closed form (R192). -/
theorem currentFrame_eq_frameAt {payload : List Byte} {k : Nat} {s : State} {cur : Byte} (h : CursorAt payload k s)
    (hcur : (Config.startRom ++ payload)[s.byteIndex.toNat]? = some cur) : currentFrame cur s = frameAt payload k := by
  have hbyte : streamOf payload (k % cycleFrames payload / 4) = cur := by
    rw [streamOf, List.getD_eq_getElem?_getD, ← h.byteIndex, hcur]; rfl
  simp [currentFrame, frameAt, hbyte, h.clock, h.lowHalf]

/-- A tick moves the cursor of tick `k` to that of tick `k + 1` (R192). -/
theorem CursorAt.advance {payload : List Byte} {k : Nat} {s : State} (h : CursorAt payload k s)
    (hlen : s.txLen.toNat = payload.length) (hl : payload.length ≤ 256) (f : Frame) :
    CursorAt payload (k + 1) (advanceCursor (emit f s)) := by
  obtain ⟨hi, hlow, hclk⟩ := h
  rw [mod_cycleFrames_mod_four] at hlow hclk
  have hphase := mod_cycleFrames_mod_four payload k
  have hcycle : cycleFrames payload = 4 * (payload.length + 2) := rfl
  have hlt : k % cycleFrames payload < cycleFrames payload := Nat.mod_lt _ (by omega)
  constructor
  · rw [advanceCursor_byteIndex, nextIndex_emit, apply_ite BitVec.toNat, nextIndex_toNat (by omega) (by omega),
      succ_mod_cycleFrames, emit_clockHigh, emit_lowHalfPending, emit_byteIndex, hclk, hlow, hlen, hi]
    simp only [Bool.or_eq_true, decide_eq_true_eq]
    split_ifs <;> omega
  · rw [advanceCursor_lowHalfPending, emit_clockHigh, emit_lowHalfPending, hclk, hlow, mod_cycleFrames_mod_four]
    have hk : k % 4 = 0 ∨ k % 4 = 1 ∨ k % 4 = 2 ∨ k % 4 = 3 := by omega
    obtain hk | hk | hk | hk := hk <;> simp [hk, Nat.add_mod k 1 4]
  · rw [advanceCursor_clockHigh, emit_clockHigh, hclk, mod_cycleFrames_mod_four, ← decide_not, decide_eq_decide]
    omega

/-- A frame sent keeps the stream invariant: it is the next one of R192, and the cursor moves on by one tick. -/
theorem StreamInv.frame {s : State} (h : StreamInv s) (hi : StateInv s) (hr : s.txState = .running) {cur : Byte}
    (hcur : streamByte s.byteIndex.toNat s = some cur) : StreamInv (advanceCursor (emit (currentFrame cur s) s)) := by
  have hne : s.txState ≠ .idle := by simp [hr]
  rw [streamByte_of_wf hi.hhduc.1] at hcur
  have hlen : s.txLen.toNat = (Memory.bytes s.hhduc).length := by rw [bytes_length, h.length hne]
  have hframe := currentFrame_eq_frameAt (h.cursor hne) hcur
  have hcursor := (h.cursor hne).advance hlen (hlen ▸ hi.txLen_le hr) (currentFrame cur s)
  constructor
  case idle => intro ht; simp [hr] at ht
  case length => intro _; simpa using h.length hne
  case sent => intro _; simpa [framesUpTo_succ, hframe] using h.sent hne
  case cursor => intro _; simpa using hcursor
  case last => simp

/-- `FLK_START` begins the stream: nothing has been sent, and the cursor is that of tick 0 (R182, R192). -/
theorem StreamInv.start {s : State} (h : StreamInv s) (hi : StateInv s) (ht : s.txState = .idle) :
    StreamInv { loadCursor s with txState := if s.cancelPending then .stopped else .running } := by
  have hnil := h.idle ht
  constructor
  case idle => intro _; exact hnil
  case length => intro _; exact hhducLen_toNat hi.hhduc
  case sent => intro _; simp [hnil, framesUpTo]
  case cursor => intro _; simp only [loadCursor_frames, hnil]; exact ⟨by simp, by simp, by simp⟩
  case last => exact h.last

/-- A cancellation leaves the transmission where it is, whether or not it stops it (R188). -/
theorem StreamInv.cancelled {s : State} (h : StreamInv s) :
    StreamInv { s with cancelPending := true, txState := if s.txState = .running then .stopped else s.txState } := by
  by_cases hr : s.txState = .running
  · have hne : s.txState ≠ .idle := by simp [hr]
    simp only [hr, if_true]
    exact { h with
      idle := nofun
      length := fun _ => h.length hne
      sent := fun _ => h.sent hne
      cursor := fun _ => { h.cursor hne with } }
  · simp only [hr, if_false]
    exact { h with cursor := fun ht => { h.cursor ht with } }

/-- Every effect keeps the stream invariant. `HHDUC` is replaced only while the transmitter is IDLE and nothing has been sent. -/
theorem effect_keeps_streamInv {c : Bool} {s t : State} (e : Effect c s t) (hi : StateInv s) (h : StreamInv s) :
    StreamInv t := by
  cases e with
  | hhduc sc de1 de2 de3 _ ht _ =>
    exact { h with
      length := fun hne => absurd ht hne
      sent := fun hne => absurd ht hne
      cursor := fun hne => absurd ht hne }
  | start _ ht _ => exact h.start hi ht
  | frame cur ht hcur => exact h.frame hi ht.1 hcur
  | cancelled _ => exact h.cancelled
  | unchanged | fault | refusal | readValue | readNothing | result | bqr | error =>
    exact { h with cursor := fun ht => { h.cursor ht with } }

theorem stepAt_keeps_streamInv {p : Config.Params} {s t : State} (hi : StateInv s) (h : StreamInv s)
    (hs : stepAt p s = .next t) : StreamInv t := by
  obtain ⟨-, rest, rfl⟩ | ⟨-, rest, e⟩ := stepAt_effect hs
  · exact streamInv_reset rest
  · exact effect_keeps_streamInv e (hi.withArrivals rest) (h.withArrivals rest)

end Sys2Proof.Safety
end

section
/-! SUPPORT. The smaller facts the statements about the state need: ticks over another `BQR`, marks, the primitives, one step on
a command or a read, the views. -/

namespace Sys2Proof.Safety
open Sys2Proof.Machine

/-! ### Ticks do not see `BQR` -/

/-- The state with other contents of `BQR`. -/
def withBqr (m : Memory) (s : State) : State := { s with bqr := m }

@[simp] theorem withBqr_frames (m : Memory) (s : State) : (withBqr m s).frames = s.frames := rfl

theorem advanceCursor_withBqr (m : Memory) (s : State) : advanceCursor (withBqr m s) = withBqr m (advanceCursor s) := by
  rw [advanceCursor_eq, advanceCursor_eq]; rfl

/-- Neither the current byte nor its frame is read from `BQR` (R180, R183). -/
theorem tick_withBqr (m : Memory) (s : State) : tick (withBqr m s) = withBqr m (tick s) := by
  have hbyte : streamByte (withBqr m s).byteIndex.toNat (withBqr m s) = streamByte s.byteIndex.toNat s := rfl
  unfold tick
  rw [hbyte]
  cases streamByte s.byteIndex.toNat s with
  | none => rfl
  | some cur => exact advanceCursor_withBqr m (emit (currentFrame cur s) s)

/-- One tick and then `k` more (R187). -/
theorem afterTicks_succ (k : Nat) (s : State) : afterTicks (k + 1) s = afterTicks k (if ticks s then tick s else s) := rfl

theorem afterTicks_withBqr (m : Memory) (k : Nat) (s : State) :
    afterTicks k (withBqr m s) = (afterTicks k s).map (withBqr m) := by
  induction k generalizing s with
  | zero => rfl
  | succ k ih =>
    have hticks : ticks (withBqr m s) ↔ ticks s := .rfl
    rw [afterTicks_succ, afterTicks_succ, ← ih, tick_withBqr, ← apply_ite (withBqr m)]
    simp only [hticks]

/-! ### Marks and the end of a run -/

theorem effect_keeps_marks {c : Bool} {s t : State} (e : Effect c s t) :
    (∀ m, s.fault = some m → t.fault = some m) ∧ (∀ m, s.refused = some m → t.refused = some m) := by
  cases e with
  | fault m => exact ⟨fun _ hf => by simp [hf], fun _ => id⟩
  | readNothing => exact ⟨fun _ hf => by simp [hf], fun _ => id⟩
  | refusal m => exact ⟨fun _ => id, fun _ hr => by simp [hr]⟩
  | frame => simp
  | unchanged | readValue | result | hhduc | bqr | error | start | cancelled => exact ⟨fun _ => id, fun _ => id⟩

/-- An effect that writes `ERR`, `UNIT_STATE` or `TX_STATE` asks for a run that has not ended; then `ERR` is 0 (R26, R219). -/
theorem effect_keeps_end {c : Bool} {s t : State} (e : Effect c s t) (h : StateInv s) :
    (s.unitState = .aborted → t.unitState = .aborted) ∧ (s.txState = .stopped → t.txState = .stopped) ∧
    (s.err ≠ 0x00#8 → t.err = s.err) := by
  cases e with
  | error cause hr =>
    obtain ⟨-, hu, ht⟩ := hr
    have herr : ¬ s.err ≠ 0x00#8 := by simp [h.aborted, hu]
    exact ⟨fun _ => rfl, id, fun he => absurd he herr⟩
  | start hr => exact ⟨id, fun hs => absurd hs hr.2.2, fun _ => rfl⟩
  | cancelled hr => exact ⟨id, fun hs => absurd hs hr.2.2, fun _ => rfl⟩
  | frame => simp
  | unchanged | fault | refusal | readValue | readNothing | result | hhduc | bqr => exact ⟨id, id, fun _ => rfl⟩

/-! ### The primitives -/

/-- Everything `hostCommand` can do with a body that writes `RESULT` or records `F_UNWRITTEN` (R219). -/
theorem hostCommand_result_cases {body : State → State} {s : State}
    (h : body s = recordFault .unwritten s ∨ ∃ v, body s = writeResult v s) :
    hostCommand body s = s ∨ hostCommand body s = recordRefusal .afterEnd s ∨
    hostCommand body s = recordFault .unwritten s ∨ ∃ v, hostCommand body s = writeResult v s := by
  obtain ⟨-, e⟩ | ⟨-, -, e⟩ | ⟨-, e⟩ := hostCommand_cases body s
  · exact .inl e
  · exact .inr (.inl e)
  · rw [e]; exact .inr (.inr h)

theorem withSource_writeResult_cases (src : Source) (f : List Byte → Word) (s : State) :
    withSource src (fun bytes => writeResult (f bytes)) s = recordFault .unwritten s ∨
    ∃ v, withSource src (fun bytes => writeResult (f bytes)) s = writeResult v s := by
  obtain ⟨bytes, -, e⟩ | ⟨-, e⟩ := withSource_cases src (fun bytes => writeResult (f bytes)) s
  · exact .inr ⟨_, e⟩
  · exact .inl e

/-- Everything a primitive can do: nothing, a refusal, the fault of an empty buffer, or its result. -/
theorem exec_primitive_cases {i : Instr} {s t : State}
    (hi : (∃ n, i = .dsum n) ∨ (∃ src, i = .nxor src) ∨ (∃ src, i = .crc16 src)) (h : exec i s = .next t) :
    t = s ∨ t = recordRefusal .afterEnd s ∨ t = recordFault .unwritten s ∨ ∃ v, t = writeResult v s := by
  obtain ⟨n, rfl⟩ | ⟨src, rfl⟩ | ⟨src, rfl⟩ := hi <;> cases h
  · exact hostCommand_result_cases (.inr ⟨_, rfl⟩)
  · exact hostCommand_result_cases (withSource_writeResult_cases src _ s)
  · exact hostCommand_result_cases (withSource_writeResult_cases src _ s)

/-! ### One step on a command or a host read -/

/-- A command that arrives whole and without a fault has its effect (R35, R56, R59). -/
theorem stepAt_command {p : Config.Params} {s : State} {w : Word} {port : List Byte} {rest : List Arrival} {i : Instr}
    (ha : s.arrivals = .command w port :: rest) (hf : s.fault = none) (hd : decodeAt p.dsumWidth w port = .command i) :
    stepAt p s = execAt p i { s with arrivals := rest } := by
  simp only [stepAt, ha, runArrival, runCommand, hf, hd]

theorem stepAt_read {p : Config.Params} {s : State} {r : HostRead} {rest : List Arrival}
    (ha : s.arrivals = .read r :: rest) : stepAt p s = .next (hostRead r { s with arrivals := rest }) := by
  simp only [stepAt, ha, runArrival]

/-- What a host read gives back is read from the block, not from the interface. -/
theorem hostValue_withArrivals (r : HostRead) (s : State) (rest : List Arrival) :
    hostValue r { s with arrivals := rest } = hostValue r s := rfl

theorem step_read_value {s : State} {r : HostRead} {v : HostValue} {rest : List Arrival}
    (ha : s.arrivals = .read r :: rest) (hv : hostValue r s = some v) :
    step s = .next { s with arrivals := rest, readback := some v } := by
  rw [step, stepAt_read ha, hostRead, hostValue_withArrivals, hv]

theorem step_read_nothing {s : State} {r : HostRead} {rest : List Arrival}
    (ha : s.arrivals = .read r :: rest) (hv : hostValue r s = none) :
    step s = .next { s with arrivals := rest, readback := none, fault := s.fault.or (some .unwritten) } := by
  rw [step, stepAt_read ha, hostRead, hostValue_withArrivals, hv]; rfl

/-- An address at or beyond a canonical buffer's length names no byte (R51). -/
theorem read_beyond {m : Memory} (h : Memory.wf m) {a : Nat} (ha : m.length ≤ a) : Memory.read m a = none := by
  rw [read_of_wf h, List.getElem?_eq_none_iff, bytes_length]; exact ha

/-! ### Views and frames -/

/-- The bits of `STATUS`, from bit 0 up (R37). -/
theorem status_bits (s : State) :
    s.status.getLsbD 0 = decide (s.unitState = .aborted) ∧ s.status.getLsbD 1 = s.txState.code.getLsbD 0 ∧
    s.status.getLsbD 2 = s.txState.code.getLsbD 1 ∧ s.status.getLsbD 3 = s.hhducValid ∧
    s.status.getLsbD 4 = s.bqrValid ∧ s.status.getLsbD 5 = s.resultValid ∧ s.status.getLsbD 6 = s.cancelPending ∧
    s.status.getLsbD 7 = s.ended := by
  simp only [State.status, BitVec.getLsbD_append, BitVec.getLsbD_ofBool]
  simp

/-- The two bits of `TX_STATE` in `STATUS` (R37). -/
theorem status_extractLsb'_tx (s : State) : s.status.extractLsb' 1 2 = s.txState.code := by
  obtain ⟨-, h1, h2, -⟩ := status_bits s
  apply BitVec.eq_of_getLsbD_eq
  intro i hi
  rw [BitVec.getLsbD_extractLsb']
  obtain rfl | rfl : i = 0 ∨ i = 1 := by omega
  · simpa using h1
  · simpa using h2

theorem sameSpace_hhduc {s t : State} (h : t.hhduc = s.hhduc) : sameSpace .hhduc s t :=
  ⟨h, fun a => by rw [memRead, State.space, h]; rfl⟩

theorem sameSpace_bqr {s t : State} (h : t.bqr = s.bqr) : sameSpace .bqr s t :=
  ⟨h, fun a => by rw [memRead, State.space, h]; rfl⟩

/-- `ENC_HHDUC` on accepted fields, where it is let through, replaces the payload (R143). -/
theorem hostCommand_encHhducBody_accepted (covers : Bool) {sc de1 de2 de3 : List Byte} {s : State} (hr : runs s)
    (ht : s.txState = .idle) (ha : accepted sc de1 de2 de3) :
    hostCommand (encHhducBody covers sc de1 de2 de3) s = writeHhduc (hhducPayload covers sc de1 de2 de3) s := by
  have hnot : s.txState ≠ .running := by simp [ht]
  rw [hostCommand_runs _ hr, encHhducBody, if_neg hnot, encodeHhduc_of_accepted covers ha]
  rfl

end Sys2Proof.Safety
end

section
/-! PROOFS. The statements about the state, its invariants and its views. -/

namespace Sys2Proof.Safety
open Sys2Proof.Machine

/-- Settles O58: a step resets the block or has one of the listed effects, and each of them keeps the invariant. -/
theorem everyStepKeepsTheInvariant : Obligations.EveryStepKeepsTheInvariant :=
  ⟨fun _ _ => stepAt_keeps_stateInv, fun _ _ _ => stepAt_keeps_stateInv⟩

/-- Settles O60: a step resets the block or has one of the listed effects, and each of them keeps the stream; a tick by
`StreamInv.frame`. -/
theorem everyStepKeepsTheStream : Obligations.EveryStepKeepsTheStream :=
  ⟨fun _ _ => stepAt_keeps_streamInv, fun _ _ _ => stepAt_keeps_streamInv⟩

/-- Settles O45: ticks commute with replacing `BQR`, by induction on their number. -/
theorem transmissionIgnoresBqr : Obligations.TransmissionIgnoresBqr := by
  intro s m k
  have h := congrArg (Option.map State.frames) (afterTicks_withBqr m k s)
  rwa [Option.map_map] at h

/-- Settles O47: no effect clears a mark; the reset input clears both. -/
theorem marksAreSticky : Obligations.MarksAreSticky := by
  intro s t h
  obtain ⟨hreset, rest, rfl⟩ | ⟨hother, rest, e⟩ := stepAt_effect h
  · exact ⟨fun hne => absurd hreset hne, fun _ => ⟨rfl, rfl⟩⟩
  · have hmarks := effect_keeps_marks e
    exact ⟨fun _ => hmarks, fun hr => absurd hr hother⟩

/-- Settles O48: what writes `ERR`, `UNIT_STATE` or `TX_STATE` is let through only before the end of run. -/
theorem endOfRunIsFinal : Obligations.EndOfRunIsFinal := by
  intro s t hinv h hne
  obtain ⟨hreset, -⟩ | ⟨-, rest, e⟩ := stepAt_effect h
  · exact absurd hreset hne
  · have hend := effect_keeps_end e (hinv.withArrivals rest)
    exact hend

/-- Settles O49: a primitive does nothing, records a mark, or writes its result. -/
theorem primitivesFrame : Obligations.PrimitivesFrame := by
  intro i s t hi h
  obtain rfl | rfl | rfl | ⟨v, rfl⟩ := exec_primitive_cases hi h <;>
    refine ⟨sameSpace_hhduc rfl, sameSpace_bqr rfl, rfl, rfl, rfl, ⟨rfl, rfl, rfl, rfl, rfl, rfl⟩, rfl, ⟨rfl, rfl⟩, ?_⟩
  case inl => exact fun _ => ⟨rfl, rfl⟩
  case inr.inl => intro hchange; simp at hchange
  case inr.inr.inl => intro hchange; simp at hchange
  case inr.inr.inr => exact fun _ => ⟨rfl, rfl⟩

/-- Settles O6: the interface passes the decoded command on; `exec` is `execAt` at the chosen parameters. -/
theorem stepRunsTheDecodedCommand : Obligations.StepRunsTheDecodedCommand := by
  refine ⟨fun s w port rest i ha hf hd => ?_, fun _ _ _ _ _ _ ha hf hd => stepAt_command ha hf hd⟩
  exact (stepAt_command (p := Config.chosen) ha hf hd).trans (execAt_chosen i _)

/-- Settles O9: the reset state is written out, and each row reads it. -/
theorem resetStateValues : Obligations.ResetStateValues := by
  unfold Obligations.ResetStateValues
  decide

/-- Settles O22: `exec` and `execAt` are one host command at two values of `LUHN_COVERS_LDE`. -/
theorem encHhducWritesThePayload : Obligations.EncHhducWritesThePayload := fun _ _ _ _ _ hr ht ha =>
  ⟨congrArg _ (hostCommand_encHhducBody_accepted _ hr ht ha), fun _ =>
    congrArg _ (hostCommand_encHhducBody_accepted _ hr ht ha)⟩

/-- Settles O53: each of the reads listed has the value named. -/
theorem hostReadsGiveValues : Obligations.HostReadsGiveValues := by
  intro s r v rest ha hread
  refine step_read_value ha ?_
  obtain ⟨rfl, hv, rfl⟩ | ⟨rfl, rfl⟩ | ⟨rfl, rfl⟩ | ⟨rfl, rfl⟩ | ⟨off, b, rfl, hb, rfl⟩ | ⟨off, b, rfl, hb, rfl⟩ := hread
  · exact if_pos hv
  · rfl
  · rfl
  · rfl
  · rw [hostValue, hb]; rfl
  · rw [hostValue, hb]; rfl

/-- Settles O54: each of the reads listed has no value. -/
theorem hostReadOfNothingIsAFault : Obligations.HostReadOfNothingIsAFault := by
  intro s r rest hinv ha hread
  refine step_read_nothing ha ?_
  obtain ⟨rfl, hv⟩ | ⟨off, rfl, hoff⟩ | ⟨off, rfl, hoff⟩ := hread
  · simp [hostValue, hv]
  · exact congrArg (Option.map HostValue.byte) (read_beyond hinv.hhduc.1 hoff)
  · exact congrArg (Option.map HostValue.byte) (read_beyond hinv.bqr.1 hoff)

/-- Settles O55: the bits are those of `status_bits`, and a read of `STATUS` always has a value. -/
theorem statusBits : Obligations.StatusBits := by
  intro s
  obtain ⟨h0, -, -, h3, h4, h5, h6, h7⟩ := status_bits s
  refine ⟨h0, ?_, h3, h4, h5, h6, ?_, rfl, fun rest ha => step_read_value ha rfl⟩
  · rw [status_extractLsb'_tx]
    cases s.txState <;> rfl
  · rw [h7, State.ended, Bool.decide_or]

/-- Settles O56: `ERR` is computed for each of the seven causes. -/
theorem errFields : Obligations.ErrFields := by
  intro c
  cases c <;> decide

/-- Settles O57: both buffers are empty and nothing runs. -/
theorem invariantAtReset : Obligations.InvariantAtReset := stateInv_reset

/-- Settles O59: the transmitter is IDLE and no frame was sent. -/
theorem streamInvariantAtReset : Obligations.StreamInvariantAtReset := streamInv_reset

end Sys2Proof.Safety
end

section
/-! SUPPORT. The bytes before the mask by offset (R161 to R163), the mask past the magic (R164), and everything each of the
transmitter's commands can do (R186 to R188). -/

namespace Sys2Proof.Machine

/-! ### The BQR payload, offset by offset -/

theorem crcHi_eq (c : Word) : crcHi c = (c >>> 8).setWidth 8 := by
  ext i; simp [crcHi]

theorem crcLo_eq (c : Word) : crcLo c = c.setWidth 8 := by
  ext i; simp [crcLo]

/-- Past the magic the mask bytes alternate, `'D'` first (R164). -/
theorem maskAt_add_two (k : Nat) (b : Byte) : maskAt (k + 2) b = b ^^^ if k % 2 = 0 then 0x44#8 else 0x4B#8 := by
  rw [maskAt, if_neg (by omega), maskByte, Nat.add_sub_cancel]; rfl

/-- From offset 3, where the input stands, the mask bytes alternate, `'K'` first (R58, R164). -/
theorem maskAt_add_three (k : Nat) (b : Byte) : maskAt (k + 3) b = b ^^^ if k % 2 = 0 then 0x4B#8 else 0x44#8 := by
  rw [maskAt_add_two (k + 1)]
  obtain hk | hk := Nat.mod_two_eq_zero_or_one k <;> simp [Nat.add_mod, hk]

@[simp] theorem bqrHead_length (h : List Byte) : (bqrHead h).length = h.length + 3 := rfl

/-- Magic and flag come before the input (R161, R162). -/
theorem bqrPre_getElem?_input {h : List Byte} {j : Nat} (hj : j < h.length) : (bqrPre h)[j + 3]? = h[j]? := by
  rw [bqrPre, List.getElem?_append_left (by simpa using hj)]; rfl

/-- The CRC comes after the input, high byte first (R163). -/
theorem bqrPre_getElem?_crc (h : List Byte) (k : Nat) :
    (bqrPre h)[h.length + 3 + k]? = [crcHi (crc16Arc (bqrHead h)), crcLo (crc16Arc (bqrHead h))][k]? := by
  rw [bqrPre, ← bqrHead_length h, List.getElem?_append_right (Nat.le_add_right ..), Nat.add_sub_cancel_left]

/-! ### The transmitter's commands -/

/-- Everything `FLK_START` can do: nothing, a mark, or the start (R186, R219). -/
theorem exec_flkStart_cases {s t : State} (h : exec .flkStart s = .next t) :
    t = s ∨ t = recordRefusal .afterEnd s ∨ (∃ m, t = recordFault m s) ∨
    t = { loadCursor s with txState := if s.cancelPending then .stopped else .running } := by
  cases h
  obtain ⟨-, e⟩ | ⟨-, -, e⟩ | ⟨-, e⟩ := hostCommand_cases startBody s <;> rw [e]
  · exact .inl rfl
  · exact .inr (.inl rfl)
  · unfold startBody
    split
    · exact .inr (.inr (.inl ⟨_, rfl⟩))
    · split
      · exact .inr (.inr (.inr rfl))
      · exact .inr (.inr (.inl ⟨_, rfl⟩))

/-- Everything `FLK_TICK` can do: nothing, a read beyond the payload, or one frame and the cursor's advance (R187). -/
theorem exec_flkTick_cases {s t : State} (h : exec .flkTick s = .next t) :
    t = s ∨ t = recordFault .unwritten s ∨ ∃ f, t = advanceCursor (emit f s) := by
  cases h
  split
  · obtain ⟨cur, -, e⟩ | ⟨-, e⟩ := tick_cases s <;> rw [e]
    · exact .inr (.inr ⟨_, rfl⟩)
    · exact .inr (.inl rfl)
  · exact .inl rfl

/-- Everything `FLK_CANCEL` can do: nothing, or latch the cancellation and stop a RUNNING transmitter (R188). -/
theorem exec_flkCancel_cases {s t : State} (h : exec .flkCancel s = .next t) :
    t = s ∨
    t = { s with cancelPending := true, txState := if s.txState = .running then .stopped else s.txState } := by
  cases h
  by_cases hf : s.fault = none
  · rw [unlessFaulted_of_none _ hf, cancel]
    split
    · exact .inl rfl
    · exact .inr rfl
  · exact .inl (unlessFaulted_of_some _ hf)

end Sys2Proof.Machine
end

section
/-! PROOFS. The layout of the BQR payload, and what the transmitter's commands leave as it was. -/

namespace Sys2Proof.Safety
open Sys2Proof.Machine

/-- Settles O31: the mask acts by the offset alone on the bytes of `bqrPre`, each read at its offset. -/
theorem bqrPayloadLayout : Obligations.BqrPayloadLayout := by
  intro h q c he hc
  obtain ⟨-, rfl⟩ := encodeBqr_eq_ok.1 he
  have hcrc : crc16Arc (bqrHead h) = c := hc.symm
  simp only [maskDK_length, bqrPre_length, maskDK_getElem?]
  refine ⟨trivial, rfl, rfl, rfl, fun j hj => ?_, ?_, ?_⟩
  · rw [Nat.add_comm 3 j, bqrPre_getElem?_input hj, funext (maskAt_add_three j)]
  · rw [bqrPre_getElem?_crc h 0, hcrc, ← crcHi_eq, ← maskAt_add_three]; rfl
  · rw [bqrPre_getElem?_crc h 1, hcrc, ← crcLo_eq, ← Nat.add_mod_right h.length 2, ← maskAt_add_two]; rfl

/-- Settles O52: by what each of the three commands can do; a tick's advance writes the cursor alone. -/
theorem transmitterCommandsFrame : Obligations.TransmitterCommandsFrame := by
  rintro i s t (rfl | rfl | rfl) h
  · obtain rfl | rfl | ⟨m, rfl⟩ | rfl := exec_flkStart_cases h <;>
      exact ⟨sameSpace_hhduc rfl, sameSpace_bqr rfl, rfl, rfl, rfl, rfl, ⟨rfl, rfl⟩, fun _ => ⟨rfl, rfl, rfl⟩, nofun, nofun⟩
  · obtain rfl | rfl | ⟨f, rfl⟩ := exec_flkTick_cases h <;>
      exact ⟨sameSpace_hhduc (by simp), sameSpace_bqr (by simp), by simp, by simp, by simp, by simp,
        ⟨by simp, by simp⟩, nofun, by simp, nofun⟩
  · obtain rfl | rfl := exec_flkCancel_cases h <;>
      exact ⟨sameSpace_hhduc rfl, sameSpace_bqr rfl, rfl, rfl, rfl, rfl, ⟨rfl, rfl⟩, nofun, nofun,
        fun _ => ⟨⟨rfl, rfl, rfl, rfl, rfl, rfl⟩, rfl, rfl⟩⟩

end Sys2Proof.Safety
end

section
/-! SUPPORT. The decoder read both ways: which words decode to an operation and a selector (R70 to R74), which `PORT` bytes each
operand is (R75), and so which bits are which command. -/

namespace Sys2Proof

/-! ### The command word -/

@[simp] theorem wordOpc_append (c : BitVec 8) (x : BitVec 2) (r : BitVec 6) : wordOpc (c ++ x ++ r) = c := by
  rw [wordOpc, BitVec.extractLsb'_append_eq_of_le (by decide)]
  exact BitVec.extractLsb'_append_eq_left

@[simp] theorem wordSrc_append (c : BitVec 8) (x : BitVec 2) (r : BitVec 6) : wordSrc (c ++ x ++ r) = x := by
  rw [wordSrc, BitVec.extractLsb'_append_eq_of_le (by decide)]
  exact BitVec.extractLsb'_append_eq_right

@[simp] theorem wordRsv_append (c : BitVec 8) (x : BitVec 2) (r : BitVec 6) : wordRsv (c ++ x ++ r) = r :=
  BitVec.extractLsb'_append_eq_right

/-- A word is its three fields, from bit 15 down (R70). -/
theorem append_fields (w : Word) : wordOpc w ++ wordSrc w ++ wordRsv w = w := by
  have hhi : wordOpc w ++ wordSrc w = w.extractLsb' 6 10 := BitVec.extractLsb'_append_extractLsb'_eq_extractLsb' rfl
  rw [hhi]
  exact (BitVec.extractLsb'_append_extractLsb'_eq_extractLsb' rfl).trans BitVec.extractLsb'_eq_self

theorem eq_append_iff_fields {w : Word} {c : BitVec 8} {x : BitVec 2} {r : BitVec 6} :
    w = c ++ x ++ r ↔ wordOpc w = c ∧ wordSrc w = x ∧ wordRsv w = r := by
  constructor
  · rintro rfl; simp
  · rintro ⟨rfl, rfl, rfl⟩; exact (append_fields w).symm

theorem ofCode_eq_some {c : BitVec 8} {o : Opcode} : Opcode.ofCode c = some o ↔ o.code = c := by
  constructor
  · intro h
    simpa using List.find?_some h
  · rintro rfl
    cases o <;> rfl

theorem sourceOf_eq_some {o : Opcode} {c : BitVec 2} {x : SrcSel} :
    o.sourceOf c = some x ↔ x ∈ o.sources ∧ x.code = c := by
  constructor
  · intro h
    exact ⟨List.mem_of_find?_eq_some h, by simpa using List.find?_some h⟩
  · rintro ⟨hx, rfl⟩
    revert hx
    cases o <;> cases x <;> decide

/-- A word decodes exactly where each of its fields does: `RSV` to zero, `OPC` to an operation, `SRC` to one of its selectors. -/
theorem decodeWord_eq_some_iff_fields {w : Word} {o : Opcode} {x : SrcSel} :
    decodeWord w = some (o, x) ↔
      wordRsv w = 0#6 ∧ Opcode.ofCode (wordOpc w) = some o ∧ o.sourceOf (wordSrc w) = some x := by
  unfold decodeWord
  by_cases hr : wordRsv w = 0#6
  · cases ho : Opcode.ofCode (wordOpc w) with
    | none => simp [hr]
    | some o' => cases hx : o'.sourceOf (wordSrc w) <;> grind
  · simp [hr]

theorem decodeWord_eq_some {w : Word} {o : Opcode} {x : SrcSel} :
    decodeWord w = some (o, x) ↔ x ∈ o.sources ∧ w = encodeWord o x := by
  rw [decodeWord_eq_some_iff_fields, ofCode_eq_some, sourceOf_eq_some, encodeWord, eq_append_iff_fields]
  tauto

/-- The 13 words of R77 are every operation with every selector R72 lists for it. -/
theorem mem_legalWords {w : Word} : w ∈ legalWords ↔ ∃ o x, decodeWord w = some (o, x) := by
  have hall : legalWords = Opcode.all.flatMap fun o => o.sources.map (encodeWord o) := by decide
  have hmem : ∀ o : Opcode, o ∈ Opcode.all := fun o => by cases o <;> decide
  simp only [hall, List.mem_flatMap, List.mem_map, hmem, true_and, decodeWord_eq_some, @eq_comm _ w]

theorem decodeAt_of_not_mem_legalWords {width : Nat} {w : Word} {port : List Byte} (h : w ∉ legalWords) :
    decodeAt width w port = .reserved := by
  have hw : decodeWord w = none :=
    Option.eq_none_iff_forall_not_mem.2 fun ⟨o, x⟩ he => h (mem_legalWords.2 ⟨o, x, he⟩)
  simp only [decodeAt, hw]

/-! ### Operands on `PORT` -/

theorem eq_append_of_takeBytes {n : Nat} {p a rest : List Byte} (h : takeBytes n p = some (a, rest)) :
    a.length = n ∧ p = a ++ rest := by
  simp only [takeBytes, Option.ite_none_right_eq_some, Option.some.injEq, Prod.mk.injEq] at h
  obtain ⟨hn, rfl, rfl⟩ := h
  exact ⟨List.length_take_of_le hn, (List.take_append_drop n p).symm⟩

theorem eq_framed_of_takeString {p s rest : List Byte} (h : takeString p = some (s, rest)) : p = frameString s ++ rest := by
  unfold takeString at h
  split at h
  · cases h
  · next len p' hlen =>
    obtain ⟨h2, rfl⟩ := eq_append_of_takeBytes hlen
    obtain ⟨hs, rfl⟩ := eq_append_of_takeBytes h
    rw [frameString, hs, ← h2, beBytes_beNat, List.append_assoc]

theorem eq_framed_of_takeInteger {width n : Nat} {p rest : List Byte} (h : takeInteger width p = some (n, rest)) :
    p = beBytes (Config.dsumBytes width) n ++ rest := by
  simp only [takeInteger, Option.map_eq_some_iff, Prod.mk.injEq] at h
  obtain ⟨⟨a, _⟩, ha, rfl, rfl⟩ := h
  obtain ⟨hlen, rfl⟩ := eq_append_of_takeBytes ha
  rw [← hlen, beBytes_beNat]

theorem eq_framed_of_takeSource {x : SrcSel} {p rest : List Byte} {src : Source} (h : takeSource x p = some (src, rest)) :
    x = src.sel ∧ p = src.framed ++ rest := by
  cases x with
  | port =>
    simp only [takeSource, Option.map_eq_some_iff, Prod.mk.injEq] at h
    obtain ⟨⟨s, _⟩, hs, rfl, rfl⟩ := h
    exact ⟨rfl, eq_framed_of_takeString hs⟩
  | hhduc | bqr => cases h; exact ⟨rfl, rfl⟩

theorem eq_framed_of_takeFields {width : Nat} {p rest : List Byte} {i : Instr} (h : takeFields p = some (i, rest)) :
    i.word = encodeWord .encHhduc .port ∧ p = i.operandBytes width ++ rest := by
  unfold takeFields at h
  split at h
  · cases h
  next h1 =>
  split at h
  · cases h
  next h2 =>
  split at h
  · cases h
  next h3 =>
  simp only [Option.map_eq_some_iff, Prod.mk.injEq] at h
  obtain ⟨⟨de3, _⟩, h4, rfl, rfl⟩ := h
  obtain rfl := eq_framed_of_takeString h1
  obtain rfl := eq_framed_of_takeString h2
  obtain rfl := eq_framed_of_takeString h3
  obtain rfl := eq_framed_of_takeString h4
  exact ⟨rfl, by simp [Instr.operandBytes]⟩

/-- What an operation takes off `PORT` under one of its selectors is the operand of a command with their word. -/
theorem eq_framed_of_takeOperand {width : Nat} {o : Opcode} {x : SrcSel} {p rest : List Byte} {i : Instr}
    (hx : x ∈ o.sources) (h : takeOperand width o x p = some (i, rest)) :
    i.word = encodeWord o x ∧ p = i.operandBytes width ++ rest := by
  cases o with
  | dsum =>
    obtain rfl : x = .port := by simpa [Opcode.sources] using hx
    simp only [takeOperand, Option.map_eq_some_iff, Prod.mk.injEq] at h
    obtain ⟨⟨n, _⟩, hn, rfl, rfl⟩ := h
    exact ⟨rfl, eq_framed_of_takeInteger hn⟩
  | nxor | crc16 | encBqr =>
    simp only [takeOperand, Option.map_eq_some_iff, Prod.mk.injEq] at h
    obtain ⟨⟨src, _⟩, hs, rfl, rfl⟩ := h
    obtain ⟨rfl, rfl⟩ := eq_framed_of_takeSource hs
    exact ⟨rfl, rfl⟩
  | encHhduc =>
    obtain rfl : x = .port := by simpa [Opcode.sources] using hx
    exact eq_framed_of_takeFields h
  | flkStart | flkTick | flkCancel =>
    obtain rfl : x = .port := by simpa [Opcode.sources] using hx
    cases h
    exact ⟨rfl, rfl⟩

/-- A deliverable command's word is that of an operation with one of its selectors, which takes the command's own operand off
`PORT` and leaves what follows it. -/
theorem takeOperand_framed {width : Nat} {i : Instr} (h : i.wfAt width = true) :
    ∃ o x, x ∈ o.sources ∧ i.word = encodeWord o x ∧
      ∀ rest, takeOperand width o x (i.operandBytes width ++ rest) = some (i, rest) := by
  cases i with
  | dsum n =>
    have hn : n < 2 ^ width := by simpa [Instr.wfAt] using h
    exact ⟨.dsum, .port, by decide, rfl, fun rest => by simp [takeOperand, Instr.operandBytes, takeInteger_framed rest hn]⟩
  | nxor src =>
    exact ⟨.nxor, src.sel, by cases src.sel <;> decide, rfl, fun rest => by
      simp [takeOperand, Instr.operandBytes, takeSource_framed rest h]⟩
  | crc16 src =>
    exact ⟨.crc16, src.sel, by cases src.sel <;> decide, rfl, fun rest => by
      simp [takeOperand, Instr.operandBytes, takeSource_framed rest h]⟩
  | encHhduc sc de1 de2 de3 =>
    simp only [Instr.wfAt, Bool.and_eq_true] at h
    obtain ⟨⟨⟨h0, h1⟩, h2⟩, h3⟩ := h
    exact ⟨.encHhduc, .port, by decide, rfl, fun rest => by
      simp [takeOperand, takeFields, Instr.operandBytes, takeString_frameString, h0, h1, h2, h3]⟩
  | encBqr src =>
    simp only [Instr.wfAt, Bool.and_eq_true] at h
    obtain ⟨hs, hb⟩ := h
    exact ⟨.encBqr, src.sel, by revert hb; cases src <;> simp [Source.sel, Opcode.sources], rfl, fun rest => by
      simp [takeOperand, Instr.operandBytes, takeSource_framed rest hs]⟩
  | flkStart => exact ⟨.flkStart, .port, by decide, rfl, fun _ => rfl⟩
  | flkTick => exact ⟨.flkTick, .port, by decide, rfl, fun _ => rfl⟩
  | flkCancel => exact ⟨.flkCancel, .port, by decide, rfl, fun _ => rfl⟩

/-! ### Whole commands -/

theorem decodeAt_eq_command_iff_takeOperand {width : Nat} {w : Word} {port : List Byte} {i : Instr} :
    decodeAt width w port = .command i ↔
      i.wfAt width = true ∧ ∃ o x, decodeWord w = some (o, x) ∧ takeOperand width o x port = some (i, []) := by
  unfold decodeAt
  cases hw : decodeWord w with
  | none => simp
  | some ox =>
    obtain ⟨o, x⟩ := ox
    cases ht : takeOperand width o x port with
    | none => simp [ht]
    | some r =>
      obtain ⟨j, rest⟩ := r
      cases rest <;> grind

/-- The decoder reads a command from a word and its `PORT` bytes exactly where the command is deliverable and they are its
encoding. -/
theorem decodeAt_eq_command {width : Nat} {w : Word} {port : List Byte} {i : Instr} :
    decodeAt width w port = .command i ↔ i.wfAt width = true ∧ encodeAt width i = (w, port) := by
  rw [decodeAt_eq_command_iff_takeOperand]
  refine and_congr_right fun hi => ?_
  constructor
  · rintro ⟨o, x, hw, ht⟩
    obtain ⟨hx, rfl⟩ := decodeWord_eq_some.1 hw
    obtain ⟨hword, rfl⟩ := eq_framed_of_takeOperand hx ht
    rw [encodeAt, hword, List.append_nil]
  · rintro ⟨⟩
    obtain ⟨o, x, hx, hword, ht⟩ := takeOperand_framed hi
    exact ⟨o, x, decodeWord_eq_some.2 ⟨hx, hword⟩, by simpa using ht []⟩

end Sys2Proof
end

section
/-! SUPPORT. What a command comes to where the buffer it reads is empty (R72, R186, R217). -/

namespace Sys2Proof.Machine
open Sys2Proof.Safety

theorem recordFault_of_none {m : FaultMark} {s : State} (h : s.fault = none) :
    recordFault m s = { s with fault := some m } := by
  rw [recordFault, h, Option.none_or]

theorem hostCommand_withSource_empty {src : Source} {s : State} (body : List Byte → State → State) (hr : runs s)
    (h : (src = .hhduc ∧ s.hhduc = []) ∨ (src = .bqr ∧ s.bqr = [])) :
    hostCommand (withSource src body) s = { s with fault := some .unwritten } := by
  rw [hostCommand_runs _ hr]
  obtain ⟨bytes, hd, -⟩ | ⟨-, e⟩ := withSource_cases src body s
  · obtain ⟨rfl, he⟩ | ⟨rfl, he⟩ := h <;> exact absurd he hd.1
  · rw [e, recordFault_of_none hr.1]

theorem hostCommand_startBody_empty {s : State} (hr : runs s) (ht : s.txState = .idle) (he : s.hhduc = []) :
    hostCommand startBody s = { s with fault := some .unwritten } := by
  rw [hostCommand_runs _ hr, startBody, if_neg (by simp [ht]), if_neg (by simp [he]), recordFault_of_none hr.1]

end Sys2Proof.Machine
end

section
/-! PROOFS. The statements about the encoding (R70 to R77), and the fault of a command that reads an empty buffer (R217). -/

namespace Sys2Proof.Machine
open Sys2Proof.Safety

/-- Settles O2: the direction from the encoding to the reading of `decodeAt_eq_command`. -/
theorem encodedCommandDecodesToItself : Obligations.EncodedCommandDecodesToItself :=
  ⟨fun _ h => decodeAt_eq_command.2 ⟨h, rfl⟩, fun _ _ h => decodeAt_eq_command.2 ⟨h, rfl⟩⟩

/-- Settles O3: the direction from the reading to the encoding of `decodeAt_eq_command`. -/
theorem decodedCommandEncodesBack : Obligations.DecodedCommandEncodesBack :=
  ⟨fun _ _ _ => decodeAt_eq_command.1, fun _ _ _ _ => decodeAt_eq_command.1⟩

/-- Settles O4: `encodeWord` is the three fields. -/
theorem wordFieldsDecode : Obligations.WordFieldsDecode := fun _ _ _ => decodeWord_eq_some

/-- Settles O5: the 13 words are those that decode; any other is `reserved` whatever came on `PORT`. -/
theorem reservedWordIsRefused : Obligations.ReservedWordIsRefused := by
  refine ⟨fun _ => mem_legalWords, fun s w port rest ha hf hw => ?_⟩
  simp only [step, stepAt, ha, runArrival, runCommand, hf, decodeAt_of_not_mem_legalWords hw, reservedWord,
    unlessFaulted_of_none, recordRefusal]

/-- Settles O1: the decoder is run on each word. -/
theorem decoderReadsWrittenWords : Obligations.DecoderReadsWrittenWords := by
  unfold Obligations.DecoderReadsWrittenWords
  decide

/-- Settles O21: the commands with a source by `hostCommand_withSource_empty`, `FLK_START` by its last branch. -/
theorem emptyBufferIsAFault : Obligations.EmptyBufferIsAFault := by
  intro s hr
  refine ⟨fun he => ?_, fun he => ?_⟩
  · have hfault (body) : hostCommand (withSource .hhduc body) s = _ := hostCommand_withSource_empty body hr (.inl ⟨rfl, he⟩)
    exact ⟨congrArg _ (hfault _), congrArg _ (hfault _), congrArg _ (hfault _), fun ht =>
      congrArg _ (hostCommand_startBody_empty hr ht he)⟩
  · have hfault (body) : hostCommand (withSource .bqr body) s = _ := hostCommand_withSource_empty body hr (.inr ⟨rfl, he⟩)
    exact ⟨congrArg _ (hfault _), congrArg _ (hfault _)⟩

end Sys2Proof.Machine
end

section
/-! SUPPORT. The laws of the checksum primitives: `digitSum` digit by digit (R100), `nibbleXor` byte by byte (R101), the CRC loop
bit by bit (R103), `luhnTerm` nibble by nibble (R105); and what a primitive answers where its source delivers bytes (R72). -/

namespace Sys2Proof.Machine
open Sys2Proof.Safety

/-! ### `digitSum` -/

/-- The loop of R100 adds the decimal digits of the number. -/
theorem digitSum_eq_digits_sum (n : Nat) : digitSum n = (Nat.digits 10 n).sum := by
  induction n using Nat.strongRecOn with
  | ind n ih =>
    obtain rfl | hn := Nat.eq_zero_or_pos n
    · simp
    · rw [digitSum_step hn.ne', ih (n / 10) (by omega), Nat.digits_def' (by decide) hn, List.sum_cons]

/-- Each of the last `k` digits adds at most 9. -/
theorem digitSum_le_div_pow_add (n k : Nat) : digitSum n ≤ digitSum (n / 10 ^ k) + 9 * k := by
  induction k with
  | zero => simp
  | succ k ih =>
    have hdigit : digitSum (n / 10 ^ k) ≤ 9 + digitSum (n / 10 ^ k / 10) := by
      by_cases h : n / 10 ^ k = 0
      · simp [h]
      · rw [digitSum_step h]; omega
    rw [pow_succ, ← Nat.div_div_eq_div_mul]
    omega

theorem digitSum_le_of_lt_pow {n k : Nat} (h : n < 10 ^ k) : digitSum n ≤ 9 * k := by
  simpa [Nat.div_eq_of_lt h] using digitSum_le_div_pow_add n k

/-! ### `nibbleXor` -/

/-- The fold of R101 XORs what follows onto what it starts from. -/
theorem foldl_nibbles_eq_xor (x : Nibble) (s : List Byte) :
    s.foldl (fun x b => x ^^^ hiNibble b ^^^ loNibble b) x = x ^^^ nibbleXor s := by
  induction s generalizing x with
  | nil => simp [nibbleXor]
  | cons b s ih =>
    rw [nibbleXor, List.foldl_cons, List.foldl_cons, ih, ih (0#4 ^^^ _ ^^^ _), BitVec.zero_xor]
    simp only [BitVec.xor_assoc]

@[simp] theorem nibbleXor_nil : nibbleXor [] = 0#4 := rfl

@[simp] theorem nibbleXor_cons (b : Byte) (s : List Byte) :
    nibbleXor (b :: s) = hiNibble b ^^^ loNibble b ^^^ nibbleXor s := by
  rw [nibbleXor, List.foldl_cons, foldl_nibbles_eq_xor, BitVec.zero_xor]

@[simp] theorem nibbleXor_append (s t : List Byte) : nibbleXor (s ++ t) = nibbleXor s ^^^ nibbleXor t := by
  induction s with
  | nil => simp
  | cons b s ih => simp [ih, BitVec.xor_assoc]

/-! ### Nibbles -/

@[simp] theorem hiNibble_append (h l : Nibble) : hiNibble (h ++ l) = h := BitVec.extractLsb'_append_eq_left

@[simp] theorem loNibble_append (h l : Nibble) : loNibble (h ++ l) = l := BitVec.extractLsb'_append_eq_right

theorem hiNibble_eq_ushiftRight (b : Byte) : hiNibble b = (b >>> 4).setWidth 4 := by
  ext i; simp [hiNibble]

theorem loNibble_eq_and (b : Byte) : loNibble b = (b &&& 0x0F#8).setWidth 4 := by
  rw [BitVec.setWidth_and]
  exact (BitVec.and_allOnes (x := b.setWidth 4)).symm

theorem hiNibble_toNat (b : Byte) : (hiNibble b).toNat = b.toNat / 16 := by
  simp [hiNibble, Nat.shiftRight_eq_div_pow]; omega

theorem loNibble_toNat (b : Byte) : (loNibble b).toNat = b.toNat % 16 := by
  simp [loNibble]

/-! ### The CRC loop -/

/-- One bit of the loop shifts, and adds `CRC_POLY` for a 1 shifted out. -/
theorem crcBit_eq (x : Word) : crcBit x = x >>> 1 ^^^ if x.getLsbD 0 then Config.crcPoly else 0#16 := by
  unfold crcBit
  split
  · rfl
  · exact BitVec.xor_zero.symm

/-- What is added is linear in the bit shifted out: two 1s add `CRC_POLY` twice, which is nothing. -/
theorem crcBit_xor (x y : Word) : crcBit (x ^^^ y) = crcBit x ^^^ crcBit y := by
  have hadded (p q : Bool) : (if p ^^ q then Config.crcPoly else 0#16) =
      (if p then Config.crcPoly else 0#16) ^^^ (if q then Config.crcPoly else 0#16) := by
    cases p <;> cases q <;> simp
  rw [crcBit_eq, crcBit_eq, crcBit_eq, BitVec.getLsbD_xor, hadded, BitVec.ushiftRight_xor_distrib]
  ac_rfl

theorem crcBits_xor (n : Nat) (x y : Word) : crcBits n (x ^^^ y) = crcBits n x ^^^ crcBits n y := by
  induction n generalizing x y with
  | zero => rfl
  | succ n ih => simp only [crcBits, crcBit_xor, ih]

theorem crcByte_xor (x y : Word) (b c : Byte) : crcByte (x ^^^ y) (b ^^^ c) = crcByte x b ^^^ crcByte y c := by
  rw [crcByte, crcByte, crcByte, ← crcBits_xor, BitVec.setWidth_xor]
  ac_rfl

/-- Linearity of the loop of R103, from any two registers. -/
theorem foldl_crcByte_xor {a b : List Byte} (h : a.length = b.length) (x y : Word) :
    (List.zipWith (· ^^^ ·) a b).foldl crcByte (x ^^^ y) = a.foldl crcByte x ^^^ b.foldl crcByte y := by
  induction a generalizing b x y with
  | nil => obtain rfl := List.length_eq_zero_iff.1 h.symm; rfl
  | cons c a ih =>
    obtain ⟨d, b, rfl⟩ := List.exists_cons_of_length_eq_add_one h.symm
    rw [List.zipWith_cons_cons, List.foldl_cons, crcByte_xor]
    exact ih (by simpa using h) _ _

/-- While the low bits are 0 the loop of R103 only shifts. -/
theorem crcBits_of_low_bits_zero {n : Nat} {x : Word} (h : ∀ i < n, x.getLsbD i = false) : crcBits n x = x >>> n := by
  induction n generalizing x with
  | zero => rfl
  | succ n ih =>
    have hbit : crcBit x = x >>> 1 := by
      rw [crcBit_eq, h 0 (Nat.succ_pos n), if_neg Bool.false_ne_true, BitVec.xor_zero]
    rw [crcBits, hbit, ih, ← BitVec.shiftRight_add, Nat.add_comm]
    intro i hi
    simpa using h (1 + i) (by omega)

/-- A byte equal to the register's low byte cancels it and leaves the high byte. -/
theorem crcByte_low_byte (c : Word) : crcByte c (c.setWidth 8) = c >>> 8 := by
  rw [crcByte, crcBits_of_low_bits_zero]
  · ext i hi; simp
  · intro i hi
    have hi16 : i < 16 := by omega
    simp [hi, hi16]

theorem crcByte_zero : crcByte 0x0000#16 0x00#8 = 0x0000#16 := by decide

/-! ### The Luhn nibble of a payload -/

/-- Each element adds its own terms to the one sum over all covered bytes (R140). -/
theorem luhnTotal_cons (covers : Bool) (sc de : List Byte) (des : List (List Byte)) :
    luhnTotal covers sc (de :: des) = elementLuhn covers de + luhnTotal covers sc des := by
  cases de with
  | nil => simp [luhnTotal, elementLuhn]
  | cons b de =>
    simp only [luhnTotal, elementLuhn, ldeByte, Config.ldeFlags]
    cases covers
    case false => simp; omega
    case true => simp; omega

/-- The sum the encoder takes field by field is the one sum over all covered bytes (R140). -/
theorem hhducLuhn_eq_luhnTotal (covers : Bool) (sc de1 de2 de3 : List Byte) :
    hhducLuhn covers sc de1 de2 de3 = luhnTotal covers sc [de1, de2, de3] := by
  have hfixed : luhnTotal covers sc [] = luhnTerm Config.controlByte + luhnSum sc := by
    simp [luhnTotal, Config.controlByte, luhnSum]
  rw [luhnTotal_cons, luhnTotal_cons, luhnTotal_cons, hfixed, hhducLuhn]
  omega

/-- The checksum byte's low nibble cancels the reduction of the bytes before it, so its Luhn nibble is left (R108, R142). -/
theorem nibbleXor_hhducPayload (covers : Bool) (sc de1 de2 de3 : List Byte) :
    nibbleXor (hhducPayload covers sc de1 de2 de3) = luhnNibble (hhducLuhn covers sc de1 de2 de3) := by
  simp only [hhducPayload, hhducChecksum, nibbleXor_append, nibbleXor_cons, nibbleXor_nil, hiNibble_append, loNibble_append]
  rw [BitVec.xor_zero, BitVec.xor_comm, BitVec.xor_assoc, BitVec.xor_self, BitVec.xor_zero]

/-! ### The primitives on delivered bytes -/

theorem hostCommand_withSource_delivers {src : Source} {bytes : List Byte} {s : State} (body : List Byte → State → State)
    (hr : runs s) (hd : delivers src bytes s) : hostCommand (withSource src body) s = body bytes s := by
  rw [hostCommand_runs _ hr, withSource_delivers body hd]

theorem exec_nxor_delivers {src : Source} {bytes : List Byte} {s : State} (hr : runs s) (hd : delivers src bytes s) :
    exec (.nxor src) s = .next (writeResult ((nibbleXor bytes).setWidth 16) s) :=
  congrArg _ (hostCommand_withSource_delivers _ hr hd)

/-- `NXOR @HHDUC` reduces the payload that was just stored. -/
theorem exec_nxor_writeHhduc {payload : List Byte} {s : State} (hr : runs s) (hp : payload ≠ []) :
    exec (.nxor .hhduc) (writeHhduc payload s) =
      .next (writeResult ((nibbleXor payload).setWidth 16) (writeHhduc payload s)) :=
  exec_nxor_delivers (s := writeHhduc payload s) hr ⟨by simpa using hp, by simp⟩

/-- `ENC_HHDUC` and then `NXOR @HHDUC`, under either value of `LUHN_COVERS_LDE` (R108, R143). -/
theorem nxor_after_encHhducAt (covers : Bool) {sc de1 de2 de3 : List Byte} {s : State} (hr : runs s) (ht : s.txState = .idle)
    (ha : accepted sc de1 de2 de3) :
    ∃ t u, encHhducAt covers sc de1 de2 de3 s = .next t ∧ execNxor .hhduc t = .next u ∧
      u.result.toNat = (10 - luhnTotal covers sc [de1, de2, de3] % 10) % 10 := by
  refine ⟨_, _, congrArg Host.Outcome.next (hostCommand_encHhducBody_accepted covers hr ht ha),
    exec_nxor_writeHhduc hr (by simp [hhducPayload]), ?_⟩
  rw [writeResult_result, nibbleXor_hhducPayload, hhducLuhn_eq_luhnTotal, BitVec.toNat_setWidth_of_le (by decide),
    luhnNibble_toNat]

end Sys2Proof.Machine
end

section
/-! PROOFS. The statements about the checksum primitives (R100 to R110), and the Luhn nibble that `NXOR` finds in a
payload (R108). -/

namespace Sys2Proof.Machine
open Sys2Proof.Safety

/-- Settles O11: a number below `2 ^ width` has at most `width` decimal digits, and `9 * 7280` still fits 16 bits. -/
theorem dsumWritesTheDigitSum : Obligations.DsumWritesTheDigitSum := by
  intro width n s hw hn hr
  have hlt : digitSum n < 2 ^ 16 := by
    have hle := digitSum_le_of_lt_pow (hn.trans_le (Nat.pow_le_pow_left (by decide : 2 ≤ 10) width))
    omega
  refine ⟨BitVec.ofNat 16 (digitSum n), congrArg _ (hostCommand_runs _ hr), ?_⟩
  rw [BitVec.toNat_ofNat, Nat.mod_eq_of_lt hlt, digitSum_eq_digits_sum]

/-- Settles O12: casting out nines, for the digits that `digitSum` adds. -/
theorem digitSumKeepsTheRemainderByNine : Obligations.DigitSumKeepsTheRemainderByNine := by
  intro n
  rw [digitSum_eq_digits_sum]
  exact (Nat.modEq_nine_digits_sum n).symm

/-- Settles O13: the last eight digits add at most 72, and those before them are a number up to 42, whose digit sum is at
most 12. -/
theorem dsumResultIsAtMost84 : Obligations.DsumResultIsAtMost84 := by
  refine ⟨fun n => ?_, by norm_num [digitSum_eq_digits_sum]⟩
  have htop : ∀ m ≤ 42, digitSum m ≤ 12 := by decide
  have hhigh := htop (n.toNat / 10 ^ 8) (by omega)
  have hlow := digitSum_le_div_pow_add n.toNat 8
  omega

/-- Settles O15: the fold appends, and a byte adds the XOR of its two nibbles. -/
theorem nibbleXorOfAConcatenation : Obligations.NibbleXorOfAConcatenation := by
  refine ⟨nibbleXor_append, fun b => ?_, nibbleXor_nil⟩
  rw [nibbleXor_cons, nibbleXor_nil, BitVec.xor_zero, hiNibble_eq_ushiftRight, loNibble_eq_and]

/-- Settles O16: by induction on the permutation; XOR commutes. -/
theorem nibbleXorIgnoresOrder : Obligations.NibbleXorIgnoresOrder := by
  intro a b h
  induction h with
  | nil => rfl
  | cons x _ ih => rw [nibbleXor_cons, nibbleXor_cons, ih]
  | swap x y l => simp only [nibbleXor_cons]; ac_rfl
  | trans _ _ ih₁ ih₂ => exact ih₁.trans ih₂

/-- Settles O18: each of the two bytes is the register's low byte when its turn comes, so the register is shifted out. -/
theorem crcResidueIsZero : Obligations.CrcResidueIsZero := by
  intro s
  rw [crc16Arc_append, List.foldl_cons, crcByte_low_byte, List.foldl_cons, crcByte_low_byte, List.foldl_nil,
    ← BitVec.shiftRight_add]
  exact BitVec.ushiftRight_eq_zero (by decide)

/-- Settles O19: the loop is linear from any two registers, and the initial register is 0. -/
theorem crcIsLinear : Obligations.CrcIsLinear := fun _ _ h => foldl_crcByte_xor h Config.crcInit Config.crcInit

/-- Settles O20: a zero byte leaves the register at 0, by induction on their number; the printed values are computed. -/
theorem crcCornerCases : Obligations.CrcCornerCases := by
  refine ⟨fun n => ?_, by decide, by decide, ?_⟩
  · induction n with
    | zero => rfl
    | succ n ih => rw [List.replicate_succ', crc16Arc_append, ih, List.foldl_cons, crcByte_zero, List.foldl_nil]
  · simp [crc16Arc, crcByte, crcBits, crcBit, Config.crcInit, Config.crcPoly]

/-- Settles O27: `ENC_HHDUC` stores the payload, `NXOR` reduces it, and its checksum byte leaves the Luhn nibble. -/
theorem nxorOfThePayloadIsTheLuhnNibble : Obligations.NxorOfThePayloadIsTheLuhnNibble := fun _ _ _ _ _ hr ht ha =>
  ⟨nxor_after_encHhducAt Config.luhnCoversLde hr ht ha, fun p => nxor_after_encHhducAt p.luhnCoversLde hr ht ha⟩

/-- Settles O14: the source delivers its bytes, and zero extension puts twelve 0 bits above the nibble. -/
theorem nxorWritesTheReduction : Obligations.NxorWritesTheReduction := by
  intro src bytes s hr hd
  have hext : (nibbleXor bytes).setWidth 16 = 0#12 ++ nibbleXor bytes := BitVec.setWidth_eq_append (by decide)
  rw [exec_nxor_delivers hr hd, hext]
  rfl

/-- Settles O17: the source delivers its bytes. -/
theorem crc16WritesTheCrc : Obligations.Crc16WritesTheCrc := fun _ _ _ hr hd =>
  congrArg _ (hostCommand_withSource_delivers _ hr hd)

/-- Settles O25: the two nibbles are quotient and remainder by 16; the table is read at each of the 16 low nibbles. -/
theorem luhnTermTable : Obligations.LuhnTermTable := by
  intro b
  have htable : ∀ k < 16, [0, 2, 4, 6, 8, 1, 3, 5, 7, 9, 2, 4, 6, 8, 10, 3][k]? = some (digitSum (2 * k)) := by decide
  rw [luhnTerm, hiNibble_toNat, loNibble_toNat, htable _ (Nat.mod_lt _ (by decide)), Option.map_some]

end Sys2Proof.Machine
end

section
/-! SUPPORT. The bytes of an HHDuc payload in order (R135 to R142), which error the checks of `ENC_HHDUC` decide on (R134), and
everything the command can do (R143). -/

namespace Sys2Proof.Machine
open Sys2Proof.Safety

/-! ### The `LDE` byte -/

/-- The flag of R139 stands where a length of 64 to 127 has its own top bit, so only the six bits below it are left (R144). -/
theorem ldeByte_toNat {de : List Byte} (h : de.length ≤ 127) : (ldeByte de).toNat = de.length % 64 + 64 := by
  have hor : ∀ n < 128, n ||| 64 = n % 64 + 64 := by decide
  rw [ldeByte, BitVec.toNat_or, BitVec.toNat_ofNat, Nat.mod_eq_of_lt (by omega)]
  exact hor de.length (by omega)

/-! ### The payload -/

/-- The present elements, each its `LDE` byte and its bytes, are what the elements append one by one (R139). -/
theorem flatMap_present_eq (des : List (List Byte)) :
    ((des.filter fun de => !de.isEmpty).flatMap fun de => (BitVec.ofNat 8 de.length ||| 0x40#8) :: de) =
      des.flatMap elementBytes := by
  induction des with
  | nil => rfl
  | cons de des ih =>
    rw [List.flatMap_cons, ← ih]
    cases de <;> rfl

/-- The payload from front to back: `LC`, `LS`, control, start code, elements, checksum (R57). -/
theorem hhducPayload_eq (covers : Bool) (sc de1 de2 de3 : List Byte) :
    hhducPayload covers sc de1 de2 de3 =
      BitVec.ofNat 8 (hhducSize sc de1 de2 de3 - 1) :: (BitVec.ofNat 8 sc.length ||| Config.lsFlags) :: Config.controlByte ::
        (sc ++ ([de1, de2, de3].flatMap elementBytes ++ [hhducChecksum covers sc de1 de2 de3])) := by
  simp [hhducPayload, hhducBody]

/-! ### The checks and the command -/

/-- Where the checks decide on an error, `ENC_HHDUC` takes the error path with it (R134, R143). -/
theorem hostCommand_encHhducBody_rejected (covers : Bool) {sc de1 de2 de3 : List Byte} {s : State} {c : ErrorCause}
    (hr : runs s) (ht : s.txState = .idle) (hc : hhducCheck sc de1 de2 de3 = some c) :
    hostCommand (encHhducBody covers sc de1 de2 de3) s = raise c s := by
  have hnot : s.txState ≠ .running := by simp [ht]
  rw [hostCommand_runs _ hr, encHhducBody, if_neg hnot, encodeHhduc, hc]
  rfl

theorem hostCommand_encHhducBody_running (covers : Bool) (sc de1 de2 de3 : List Byte) {s : State} (hr : runs s)
    (ht : s.txState = .running) :
    hostCommand (encHhducBody covers sc de1 de2 de3) s = { s with fault := some .hhducBusy } := by
  rw [hostCommand_runs _ hr, encHhducBody, if_pos ht, recordFault_of_none hr.1]

theorem hostCommand_startBody_running {s : State} (hr : runs s) (ht : s.txState = .running) :
    hostCommand startBody s = { s with fault := some .txBusy } := by
  rw [hostCommand_runs _ hr, startBody, if_pos ht, recordFault_of_none hr.1]

/-- Everything `ENC_HHDUC` can do: the payload where it is let through with accepted fields, and otherwise nothing, a mark or
the error path (R143, R219). -/
theorem encHhducAt_cases {covers : Bool} {sc de1 de2 de3 : List Byte} {s t : State}
    (h : encHhducAt covers sc de1 de2 de3 s = .next t) :
    ((runs s ∧ s.txState = .idle ∧ accepted sc de1 de2 de3) ∧ t = writeHhduc (hhducPayload covers sc de1 de2 de3) s) ∨
    (¬ (runs s ∧ s.txState = .idle ∧ accepted sc de1 de2 de3) ∧
      (t = s ∨ t = recordRefusal .afterEnd s ∨ t = recordFault .hhducBusy s ∨ ∃ c, t = raise c s)) := by
  cases h
  obtain ⟨hf, e⟩ | ⟨-, he, e⟩ | ⟨hr, -⟩ := hostCommand_cases (encHhducBody covers sc de1 de2 de3) s
  · exact .inr ⟨fun ⟨hr, _⟩ => hf hr.1, .inl e⟩
  · exact .inr ⟨fun ⟨hr, _⟩ => by simp [State.ended, hr.2] at he, .inr (.inl e)⟩
  · by_cases ht : s.txState = .running
    · refine .inr ⟨fun ⟨_, hidle, _⟩ => by simp [ht] at hidle, .inr (.inr (.inl ?_))⟩
      rw [hostCommand_encHhducBody_running covers _ _ _ _ hr ht, recordFault_of_none hr.1]
    · have hidle := idle_of_runs hr ht
      cases hc : hhducCheck sc de1 de2 de3 with
      | none =>
        have ha := (hhducCheck_eq_none ..).1 hc
        exact .inl ⟨⟨hr, hidle, ha⟩, hostCommand_encHhducBody_accepted covers hr hidle ha⟩
      | some c =>
        have hraise := hostCommand_encHhducBody_rejected covers hr hidle hc
        exact .inr ⟨fun ⟨_, _, ha⟩ => by simp [(hhducCheck_eq_none ..).2 ha] at hc, .inr (.inr (.inr ⟨c, hraise⟩))⟩

end Sys2Proof.Machine
end

section
/-! PROOFS. The statements about the HHDuc payload and `ENC_HHDUC` (R130 to R144), and the busy transmitter (R217). -/

namespace Sys2Proof.Machine
open Sys2Proof.Safety

/-- Settles O23: the payload is written from front to back, and its size fits one byte. -/
theorem hhducPayloadLayout : Obligations.HhducPayloadLayout := by
  rintro covers sc de1 de2 de3 p ⟨-, -, -, -, -, hsize⟩ rfl
  refine ⟨by rw [hhducPayload_length, hhducSize_eq], ?_⟩
  rw [hhducPayload_eq, hhducSize_eq, flatMap_present_eq]
  refine ⟨⟨_, rfl, ?_⟩, rfl, rfl, List.take_left, ?_⟩
  · rw [BitVec.toNat_ofNat, Nat.mod_eq_of_lt (by omega)]
  · rw [← List.drop_drop]
    simp only [List.drop_succ_cons, List.drop_zero, List.drop_left, List.dropLast_concat]

/-- Settles O24: the checksum byte is the Luhn nibble and then the body's `nibbleXor`, and the body is what comes before it. -/
theorem hhducChecksumByte : Obligations.HhducChecksumByte := by
  rintro covers sc de1 de2 de3 p - rfl
  refine ⟨hhducChecksum covers sc de1 de2 de3, List.getLast?_concat, ?_, ?_⟩
  · rw [← hiNibble_toNat, hhducChecksum, hiNibble_append, luhnNibble_toNat, hhducLuhn_eq_luhnTotal]
  · rw [← loNibble_eq_and, hhducChecksum, loNibble_append, hhducPayload, List.dropLast_concat]

/-- Settles O26: in each clause the checks before the one that fails pass, and the error path writes the code of its cause. -/
theorem encHhducRejections : Obligations.EncHhducRejections := by
  intro sc de1 de2 de3 s hr ht
  have hrejects {c : ErrorCause} (hc : hhducCheck sc de1 de2 de3 = some c) :
      exec (.encHhduc sc de1 de2 de3) s = .next (raise c s) :=
    congrArg _ (hostCommand_encHhducBody_rejected _ hr ht hc)
  simp only [hhducCheck, hhducSize_eq, Config.maxScLen, Config.maxDeLen, Config.maxHhducLen] at hrejects
  refine ⟨fun h => hrejects (c := .scEmpty) ?_, fun h => hrejects (c := .scTooLong) ?_,
    fun h => hrejects (c := .de1TooLong) ?_, fun h => hrejects (c := .de2TooLong) ?_,
    fun h => hrejects (c := .de3TooLong) ?_, fun h => hrejects (c := .hhducTooLarge) ?_⟩
  · rw [if_pos h]
  · rw [if_neg (by omega), if_pos h]
  · rw [if_neg (by omega), if_neg (by omega), if_pos (by omega)]
  · rw [if_neg (by omega), if_neg (by omega), if_neg (by omega), if_pos (by omega)]
  · rw [if_neg (by omega), if_neg (by omega), if_neg (by omega), if_neg (by omega), if_pos (by omega)]
  · rw [if_neg (by omega), if_neg (by omega), if_neg (by omega), if_neg (by omega), if_neg (by omega), if_pos (by omega)]

/-- Settles O28: the byte is the length's low six bits plus the flag, and adding 64 leaves those bits. -/
theorem ldeFlagOverlapsTheLength : Obligations.LdeFlagOverlapsTheLength := by
  refine fun de => ⟨fun h => ⟨?_, fun de' h' => BitVec.eq_of_toNat_eq ?_⟩, fun h => ?_⟩
  · rw [ldeByte_toNat (by omega)]; omega
  · rw [ldeByte_toNat (by omega), ldeByte_toNat (by omega), h', Nat.add_mod_right]
  · rw [ldeByte_toNat (by omega)]; omega

/-- Settles O50: by what the command can do; only the payload's replacement touches `HHDUC`. -/
theorem encHhducFrame : Obligations.EncHhducFrame := by
  intro p sc de1 de2 de3 s t h
  refine ⟨fun hp => by rw [← h, execAt, hp]; rfl, ?_⟩
  obtain ⟨hyes, rfl⟩ | ⟨hno, ht⟩ := encHhducAt_cases h
  · exact ⟨sameSpace_bqr rfl, rfl, rfl, rfl, ⟨rfl, rfl, rfl, rfl, rfl, rfl⟩, rfl, ⟨rfl, rfl⟩,
      fun _ => ⟨ofBytes_read _, rfl, rfl, rfl, rfl⟩, fun hno => absurd hyes hno⟩
  · obtain rfl | rfl | rfl | ⟨c, rfl⟩ := ht <;>
      exact ⟨sameSpace_bqr rfl, rfl, rfl, rfl, ⟨rfl, rfl, rfl, rfl, rfl, rfl⟩, rfl, ⟨rfl, rfl⟩,
        fun hyes => absurd hyes hno, fun _ => sameSpace_hhduc rfl⟩

/-- Settles O35: each body asks first whether the transmitter runs. -/
theorem runningTransmitterIsBusy : Obligations.RunningTransmitterIsBusy := fun _ hr ht =>
  ⟨congrArg _ (hostCommand_startBody_running hr ht), fun _ _ _ _ =>
    congrArg _ (hostCommand_encHhducBody_running _ _ _ _ _ hr ht)⟩

end Sys2Proof.Machine
end

section
/-! SUPPORT. The mask twice and the receiver's three slices of the bytes before the mask (R163 to R168), what `ENC_BQR` stores
of a delivered string (R160, R167), and everything the command can do. -/

namespace Sys2Proof.Machine
open Sys2Proof.Safety

/-! ### The mask and the receiver -/

/-- A byte is XORed twice with the same mask byte, or left alone twice (R165). -/
theorem maskAt_maskAt (i : Nat) (b : Byte) : maskAt i (maskAt i b) = b := by
  unfold maskAt
  split
  · rfl
  · rw [BitVec.xor_assoc, BitVec.xor_self, BitVec.xor_zero]

@[simp] theorem maskDK_maskDK (x : List Byte) : maskDK (maskDK x) = x := by
  apply List.ext_getElem?
  intro k
  simp [maskDK_getElem?, Function.comp_def, maskAt_maskAt]

/-- The bytes the CRC covers are all but the last two (R162, R163). -/
theorem bqrPre_take_head (h : List Byte) : (bqrPre h).take (h.length + 3) = bqrHead h :=
  List.take_left' rfl

theorem bqrPre_drop_head (h : List Byte) :
    (bqrPre h).drop (h.length + 3) = [crcHi (crc16Arc (bqrHead h)), crcLo (crc16Arc (bqrHead h))] :=
  List.drop_left' rfl

/-- The receiver finds magic, flag, input and CRC where the encoder put them (R168). -/
theorem checkBqr_maskDK_bqrPre (h : List Byte) : checkBqr (maskDK (bqrPre h)) = (true, h) := by
  have hcovered : (maskDK (bqrPre h)).length - 2 = h.length + 3 := by simp
  have hmagic : (bqrPre h).take 3 = [Config.charD, Config.charK, Config.charN] := rfl
  have hinput : (bqrHead h).drop 3 = h := rfl
  simp only [checkBqr, maskDK_maskDK, hcovered, bqrPre_take_head, bqrPre_drop_head, hmagic, hinput, decide_true, Bool.and_true]

/-! ### The command -/

theorem storeBqr_of_le {h : List Byte} (hl : h.length ≤ 256) (s : State) :
    storeBqr (encodeBqr h) s = writeBqr (maskDK (bqrPre h)) s := by
  rw [encodeBqr_eq_ok.2 ⟨hl, rfl⟩, storeBqr]

theorem storeBqr_of_gt {h : List Byte} (hl : 256 < h.length) (s : State) :
    storeBqr (encodeBqr h) s = raise .bqrInputTooLarge s := by
  rw [encodeBqr, if_pos hl, storeBqr]

/-- `ENC_BQR` of `PORT` or `HHDUC` is a host command (R167, R219). -/
theorem exec_encBqr_of_ne {src : Source} (hne : src ≠ .bqr) (s : State) :
    exec (.encBqr src) s = .next (hostCommand (withSource src fun bytes => storeBqr (encodeBqr bytes)) s) :=
  congrArg _ (if_neg hne)

theorem exec_encBqr_delivers {src : Source} {h : List Byte} {s : State} (hr : runs s) (hne : src ≠ .bqr)
    (hd : delivers src h s) : exec (.encBqr src) s = .next (storeBqr (encodeBqr h) s) := by
  rw [exec_encBqr_of_ne hne, hostCommand_withSource_delivers _ hr hd]

theorem exec_encBqr_bqr (s : State) : exec (.encBqr .bqr) s = .next (reservedWord s) := rfl

/-- Everything a reserved word can do: nothing when faulted, a refusal otherwise (R74, R219). -/
theorem reservedWord_cases (s : State) : reservedWord s = s ∨ reservedWord s = recordRefusal .invalidCmd s := by
  by_cases hf : s.fault = none
  · exact .inr (unlessFaulted_of_none _ hf)
  · exact .inl (unlessFaulted_of_some _ hf)

/-- A source delivers one byte string in a state (R72). -/
theorem delivers_unique {src : Source} {h h' : List Byte} {s : State} (hd : delivers src h s) (hd' : delivers src h' s) :
    h = h' :=
  Option.some.inj ((sourceBytes_eq_some.2 hd).symm.trans (sourceBytes_eq_some.2 hd'))

/-- `ENC_BQR` encodes `h` (R160, R167): it is let through, not as a reserved word, and its source delivers `h`, at most 256
bytes. -/
def encodesBqr (src : Source) (h : List Byte) (s : State) : Prop :=
  runs s ∧ src ≠ .bqr ∧ delivers src h s ∧ h.length ≤ 256

/-- Everything `ENC_BQR` can do: the payload of the string it encodes, and otherwise nothing, a mark or the error path (R167,
R219). -/
theorem exec_encBqr_cases {src : Source} {s t : State} (ht : exec (.encBqr src) s = .next t) :
    (∃ h, encodesBqr src h s ∧ t = writeBqr (maskDK (bqrPre h)) s) ∨
    ((∀ h, ¬ encodesBqr src h s) ∧
      (t = s ∨ (∃ m, t = recordRefusal m s) ∨ (∃ m, t = recordFault m s) ∨ ∃ c, t = raise c s)) := by
  by_cases hyes : ∃ h, encodesBqr src h s
  · obtain ⟨h, hr, hne, hd, hl⟩ := hyes
    rw [exec_encBqr_delivers hr hne hd, storeBqr_of_le hl] at ht
    cases ht
    exact .inl ⟨h, ⟨hr, hne, hd, hl⟩, rfl⟩
  refine .inr ⟨not_exists.1 hyes, ?_⟩
  by_cases hne : src = .bqr
  · subst hne
    cases ht
    exact (reservedWord_cases s).imp_right fun e => .inl ⟨_, e⟩
  · rw [exec_encBqr_of_ne hne] at ht
    cases ht
    obtain ⟨-, e⟩ | ⟨-, -, e⟩ | ⟨hr, e⟩ := hostCommand_cases (withSource src fun bytes => storeBqr (encodeBqr bytes)) s
    · exact .inl e
    · exact .inr (.inl ⟨_, e⟩)
    · rw [e]
      obtain ⟨h, hd, e⟩ | ⟨-, e⟩ := withSource_cases src (fun bytes => storeBqr (encodeBqr bytes)) s
      · have hl : 256 < h.length := not_le.1 fun hle => hyes ⟨h, hr, hne, hd, hle⟩
        exact .inr (.inr (.inr ⟨_, e.trans (storeBqr_of_gt hl s)⟩))
      · exact .inr (.inr (.inl ⟨_, e⟩))

end Sys2Proof.Machine
end

section
/-! PROOFS. The statements about the mask, the receiver and `ENC_BQR` (R160 to R168). -/

namespace Sys2Proof.Machine
open Sys2Proof.Safety

/-- Settles O32: byte by byte, the mask at an offset undoes itself. -/
theorem maskIsSelfInverse : Obligations.MaskIsSelfInverse := maskDK_maskDK

/-- Settles O33: an accepted input's payload is the masked bytes that the receiver's check reads. -/
theorem receiverRecoversTheInput : Obligations.ReceiverRecoversTheInput := by
  intro h q he
  obtain ⟨-, rfl⟩ := encodeBqr_eq_ok.1 he
  exact checkBqr_maskDK_bqrPre h

/-- Settles O51: by what the command can do; the source delivers only the string whose payload was stored. -/
theorem encBqrFrame : Obligations.EncBqrFrame := by
  intro src s t ht
  obtain ⟨h, hyes, rfl⟩ | ⟨hno, hrest⟩ := exec_encBqr_cases ht
  · refine ⟨sameSpace_hhduc rfl, rfl, rfl, rfl, ⟨rfl, rfl, rfl, rfl, rfl, rfl⟩, rfl, ⟨rfl, rfl⟩,
      fun h' _ _ hd' _ => ?_, fun hno => absurd hyes (hno h)⟩
    obtain ⟨-, -, hd, -⟩ := hyes
    obtain rfl := delivers_unique hd hd'
    exact ⟨ofBytes_read _, rfl, rfl, rfl, rfl⟩
  · obtain rfl | ⟨m, rfl⟩ | ⟨m, rfl⟩ | ⟨c, rfl⟩ := hrest <;>
      exact ⟨sameSpace_hhduc rfl, rfl, rfl, rfl, ⟨rfl, rfl, rfl, rfl, rfl, rfl⟩, rfl, ⟨rfl, rfl⟩,
        fun h hr hne hd hl => absurd ⟨hr, hne, hd, hl⟩ (hno h), fun _ => sameSpace_bqr rfl⟩

/-- Settles O29: the source delivers its bytes, and they are few enough to encode. -/
theorem encBqrWritesThePayload : Obligations.EncBqrWritesThePayload := by
  intro src h s hr hne hd hl
  rw [exec_encBqr_delivers hr hne hd, storeBqr_of_le hl, writeBqr]

/-- Settles O30: too many bytes take the error path with 0x72, and the term of the `BQR` buffer passes as a reserved word. -/
theorem encBqrRejections : Obligations.EncBqrRejections := by
  intro s hr
  refine ⟨fun src h hne hd hl => ?_, ?_⟩
  · rw [exec_encBqr_delivers hr hne hd, storeBqr_of_gt hl]
    rfl
  · rw [exec_encBqr_bqr, reservedWord, unlessFaulted_of_none _ hr.1, recordRefusal]

end Sys2Proof.Machine
end

section
/-! SUPPORT. The transmitter's ticks (R183, R187): the current byte is always held, one tick follows the closed form (R192), and
so do any number in a row; what `FLK_START` and `FLK_CANCEL` come to (R186, R188); what no effect does after the end of run
(R194, R214). -/

namespace Sys2Proof.Safety
open Sys2Proof.Machine

/-! ### One tick -/

/-- The current byte, read from the start marker or from the payload (R180). -/
theorem streamByte_eq (i : Nat) (s : State) :
    streamByte i s = if i < 2 then [0x0F#8, 0xFF#8][i]? else memRead .hhduc (i - 2) s :=
  congrArg (fun marker => if i < 2 then marker else memRead .hhduc (i - 2) s) (ofBytes_read Config.startRom i)

/-- While RUNNING the index stays within the stream, so `HHDUC` holds the byte it names (R187). -/
theorem StateInv.exists_streamByte {s : State} (h : StateInv s) (hr : s.txState = .running) :
    ∃ cur, streamByte s.byteIndex.toNat s = some cur := by
  obtain ⟨-, hlen, hi⟩ := h.running hr
  have hlt : s.byteIndex.toNat < (Config.startRom ++ Memory.bytes s.hhduc).length := by
    rw [List.length_append, bytes_length, ← hlen]
    simp only [Config.startRom, List.length_cons, List.length_nil]
    omega
  exact ⟨_, (streamByte_of_wf h.hhduc.1 _).trans (List.getElem?_eq_getElem hlt)⟩

theorem exec_flkTick_of_ticks {s : State} {cur : Byte} (ht : ticks s) (hcur : streamByte s.byteIndex.toNat s = some cur) :
    exec .flkTick s = .next (advanceCursor (emit (currentFrame cur s) s)) := by
  have htick : tick s = advanceCursor (emit (currentFrame cur s) s) := by rw [tick, hcur]
  exact congrArg _ ((if_pos ht).trans htick)

/-- `BYTE_INDEX` after a whole byte, as an increment of the 9-bit register (R183 step 4). -/
theorem nextIndex_eq (s : State) :
    nextIndex s = if s.byteIndex.toNat + 1 = s.txLen.toNat + 2 then 0#9 else s.byteIndex + 1#9 := by
  rw [nextIndex, BitVec.ofNat_add, BitVec.ofNat_toNat, BitVec.setWidth_eq]

/-- The frame of a byte in the rule's own operators (R184). -/
theorem currentFrame_eq (cur : Byte) (s : State) :
    currentFrame cur s =
      { clock := s.clockHigh
        nibble := if s.lowHalfPending then (cur &&& 0x0F#8).setWidth 4 else (cur >>> 4).setWidth 4 } := by
  rw [currentFrame, loNibble_eq_and, hiNibble_eq_ushiftRight]

/-- A tick taken at the cursor of tick `k` emits `frame(k)` and leaves the cursor of tick `k + 1` over the same payload, and the
next tick is taken too (R192). -/
theorem exec_flkTick_of_cursorAt {s : State} {k : Nat} (hi : StateInv s) (ht : ticks s)
    (hc : CursorAt (Memory.bytes s.hhduc) k s) :
    ∃ t, exec .flkTick s = .next t ∧ StateInv t ∧ ticks t ∧ t.hhduc = s.hhduc ∧
      t.frames = s.frames ++ [frameAt (Memory.bytes s.hhduc) k] ∧ CursorAt (Memory.bytes s.hhduc) (k + 1) t := by
  obtain ⟨hne, hlen, -⟩ := hi.running ht.1
  obtain ⟨cur, hcur⟩ := hi.exists_streamByte ht.1
  have hframe : currentFrame cur s = frameAt (Memory.bytes s.hhduc) k :=
    currentFrame_eq_frameAt hc (by rwa [← streamByte_of_wf hi.hhduc.1])
  refine ⟨_, exec_flkTick_of_ticks ht hcur, hi.frame _ ht.1, by simpa [ticks] using ht, by simp, by simp [hframe], ?_⟩
  exact hc.advance (by rw [bytes_length, hlen]) (by rw [bytes_length]; exact (hi.hhduc.2 hne).2.1) _

/-! ### Ticks in a row -/

theorem cycleFrames_eq (payload : List Byte) : cycleFrames payload = 4 * (payload.length + 2) := rfl

/-- From the cursor of tick `j`, `k` ticks emit `frame(j)` to `frame(j + k - 1)` and leave the cursor of tick `j + k` (R192). -/
theorem afterTicks_of_cursorAt {s : State} {j : Nat} (k : Nat) (hi : StateInv s) (ht : ticks s)
    (hc : CursorAt (Memory.bytes s.hhduc) j s) :
    ∃ t, afterTicks k s = some t ∧ t.frames = s.frames ++ (List.range' j k).map (frameAt (Memory.bytes s.hhduc)) ∧
      CursorAt (Memory.bytes s.hhduc) (j + k) t := by
  induction k generalizing s j with
  | zero => exact ⟨s, rfl, by simp, hc⟩
  | succ k ih =>
    obtain ⟨u, hu, hiu, htu, hpayload, hframes, hcu⟩ := exec_flkTick_of_cursorAt hi ht hc
    rw [← hpayload] at hcu
    obtain ⟨t, hafter, htframes, hct⟩ := ih hiu htu hcu
    rw [hpayload] at htframes hct
    refine ⟨t, by rw [afterTicks, hu]; exact hafter, ?_, ?_⟩
    · rw [htframes, hframes, List.append_assoc, List.range'_succ]; rfl
    · rwa [Nat.add_assoc, Nat.add_comm 1 k] at hct

/-- At the start of a byte the cursor is that of the byte's first tick in the cycle (R185, R192). -/
theorem StateInv.cursorAt_byte {s : State} (h : StateInv s) (hr : s.txState = .running) (hclk : s.clockHigh = true)
    (hlow : s.lowHalfPending = true) : CursorAt (Memory.bytes s.hhduc) (4 * s.byteIndex.toNat) s := by
  obtain ⟨-, hlen, hi⟩ := h.running hr
  have hlt : 4 * s.byteIndex.toNat < cycleFrames (Memory.bytes s.hhduc) := by
    rw [cycleFrames_eq, bytes_length]; omega
  constructor
  · rw [Nat.mod_eq_of_lt hlt, Nat.mul_div_cancel_left _ (by decide)]
  · rw [Nat.mod_eq_of_lt hlt, Nat.mul_mod_right, hlow]; rfl
  · rw [Nat.mod_eq_of_lt hlt, Nat.mul_mod_right, hclk]; rfl

/-- The initial cursor (R182) is that of tick 0. -/
theorem cursorAt_zero {s : State} (payload : List Byte) (hc : cursorInitial s) : CursorAt payload 0 s := by
  obtain ⟨hindex, hlow, hclk⟩ := hc
  constructor <;> simp [hindex, hlow, hclk]

/-- After a whole cycle the cursor is the initial one again (R191). -/
theorem cursorInitial_of_cycle {payload : List Byte} {s : State} (hc : CursorAt payload (cycleFrames payload) s) :
    cursorInitial s := by
  obtain ⟨hindex, hlow, hclk⟩ := hc
  rw [Nat.mod_self] at hindex hlow hclk
  exact ⟨BitVec.eq_of_toNat_eq hindex, hlow, hclk⟩

/-! ### The closed form within a byte and at the start of a cycle -/

/-- The frame of phase `p` of byte `i` of a cycle (R192). -/
theorem frameAt_byte {payload : List Byte} {i p : Nat} (hi : i < payload.length + 2) (hp : p < 4) :
    frameAt payload (4 * i + p) =
      { clock := decide (p % 2 = 0)
        nibble := if p < 2 then loNibble (streamOf payload i) else hiNibble (streamOf payload i) } := by
  have hlt : 4 * i + p < cycleFrames payload := by rw [cycleFrames_eq]; omega
  have hbyte : (4 * i + p) / 4 = i := by omega
  have hphase : (4 * i + p) % 4 = p := by omega
  simp only [frameAt, Nat.mod_eq_of_lt hlt, hbyte, hphase]

/-- The four frames of byte `i` of a cycle, low nibble first (R185). -/
theorem map_frameAt_byte {payload : List Byte} {i : Nat} (hi : i < payload.length + 2) :
    (List.range' (4 * i) 4).map (frameAt payload) =
      [⟨true, loNibble (streamOf payload i)⟩, ⟨false, loNibble (streamOf payload i)⟩,
       ⟨true, hiNibble (streamOf payload i)⟩, ⟨false, hiNibble (streamOf payload i)⟩] := by
  rw [List.range'_eq_map_range, List.map_map]
  exact (List.map_congr_left fun p hp => frameAt_byte hi (List.mem_range.1 hp)).trans rfl

/-- Whatever the payload, a cycle begins with the start marker (R193). -/
theorem framesUpTo_eight (payload : List Byte) : framesUpTo payload 8 = startSequence := by
  have hbytes : framesUpTo payload 8 =
      (List.range' (4 * 0) 4).map (frameAt payload) ++ (List.range' (4 * 1) 4).map (frameAt payload) := rfl
  have hfirst : streamOf payload 0 = 0x0F#8 := rfl
  have hsecond : streamOf payload 1 = 0xFF#8 := rfl
  rw [hbytes, map_frameAt_byte (by omega), map_frameAt_byte (by omega), hfirst, hsecond]
  decide

/-! ### `FLK_START` and `FLK_CANCEL` -/

theorem ended_eq_false_of_runs {s : State} (hr : runs s) : s.ended = false := by
  obtain ⟨-, hu, ht⟩ := hr
  simp [hu, ht]

theorem hostCommand_startBody_idle {s : State} (hr : runs s) (ht : s.txState = .idle) (hm : s.hhduc ≠ []) :
    hostCommand startBody s = { loadCursor s with txState := if s.cancelPending then .stopped else .running } := by
  rw [hostCommand_runs _ hr, startBody, if_neg (by simp [ht]), if_pos ((hhducValid_eq_true s).2 hm)]

theorem unlessFaulted_cancel_runs {s : State} (hr : runs s) :
    unlessFaulted cancel s =
      { s with cancelPending := true, txState := if s.txState = .running then .stopped else s.txState } := by
  rw [unlessFaulted_of_none _ hr.1, cancel, if_neg (by simp [ended_eq_false_of_runs hr])]

/-- A cancellation after the end of run has no effect, faulted or not (R188, R219). -/
theorem unlessFaulted_cancel_ended {s : State} (he : s.ended = true) : unlessFaulted cancel s = s := by
  by_cases hf : s.fault = none
  · rw [unlessFaulted_of_none _ hf, cancel, if_pos he]
  · exact unlessFaulted_of_some _ hf

/-! ### After the end of run -/

/-- What sends a frame or moves `TX_STATE` asks for a run that has not ended; nothing else touches the frames (R194, R214). -/
theorem effect_after_end {c : Bool} {s t : State} (e : Effect c s t) (he : s.ended = true) :
    t.frames = s.frames ∧ t.lastFrame = s.lastFrame ∧ t.ended = true := by
  have hnot : ¬ runs s := fun hr => by simp [ended_eq_false_of_runs hr] at he
  cases e with
  | start hr | cancelled hr => exact absurd hr hnot
  | frame cur ht => exact absurd ⟨ht.2.2, ht.2.1, by simp [ht.1]⟩ hnot
  | unchanged | fault | refusal | readValue | readNothing | result | hhduc | bqr => exact ⟨rfl, rfl, he⟩
  | error => exact ⟨rfl, rfl, rfl⟩

end Sys2Proof.Safety
end

section
/-! PROOFS. The statements about the transmitter (R182 to R194). -/

namespace Sys2Proof.Safety
open Sys2Proof.Machine

/-- Settles O36: the current byte is held, and the advance is the four steps field by field. -/
theorem flkTickEmitsAndAdvances : Obligations.FlkTickEmitsAndAdvances := by
  intro s hi ht
  obtain ⟨cur, hcur⟩ := hi.exists_streamByte ht.1
  refine ⟨cur, currentFrame cur s, (streamByte_eq _ s).symm.trans hcur, currentFrame_eq cur s, ?_⟩
  rw [exec_flkTick_of_ticks ht hcur, advanceCursor_eq, nextIndex_emit, nextIndex_eq]
  rfl

/-- Settles O40: every command comes to one of the listed effects. -/
theorem nothingIsEmittedAfterTheEnd : Obligations.NothingIsEmittedAfterTheEnd := by
  intro i s t he h
  rw [← execAt_chosen] at h
  exact effect_after_end (execAt_effect h) he

/-- Settles O41: the cursor is that of the byte's first tick in the closed form, whose four frames are those of the byte. -/
theorem nibbleIsHeldForTwoFrames : Obligations.NibbleIsHeldForTwoFrames := by
  intro s cur hi ht hclk hlow hcur
  obtain ⟨-, hlen, hindex⟩ := hi.running ht.1
  obtain ⟨t, hafter, hframes, -⟩ := afterTicks_of_cursorAt 4 hi ht (hi.cursorAt_byte ht.1 hclk hlow)
  have hbyte : streamOf (Memory.bytes s.hhduc) s.byteIndex.toNat = cur := by
    rw [streamOf, List.getD_eq_getElem?_getD, ← streamByte_of_wf hi.hhduc.1, hcur]; rfl
  rw [map_frameAt_byte (by rw [bytes_length]; omega), hbyte] at hframes
  exact ⟨t, hafter, hframes⟩

/-- Settles O42: the initial cursor is that of tick 0. -/
theorem ticksFollowTheClosedForm : Obligations.TicksFollowTheClosedForm := by
  intro s k hi ht hc
  obtain ⟨t, hafter, hframes, hct⟩ := afterTicks_of_cursorAt k hi ht (cursorAt_zero _ hc)
  rw [Nat.zero_add] at hct
  exact ⟨t, hafter, by rw [hframes, framesUpTo, List.range_eq_range'], hct⟩

/-- Settles O43: by the closed form, whose cursor has gone round once after a cycle and not before. -/
theorem cycleLength : Obligations.CycleLength := by
  intro s hi ht hc
  obtain ⟨-, hlen, -⟩ := hi.running ht.1
  have hcycle : 4 * (2 + s.txLen.toNat) = cycleFrames (Memory.bytes s.hhduc) := by
    rw [cycleFrames_eq, bytes_length, hlen, Nat.add_comm 2]
  rw [hcycle]
  refine ⟨fun k t hk hafter => ?_, ?_⟩
  · obtain ⟨u, hu, -, hcu⟩ := ticksFollowTheClosedForm s k hi ht hc
    obtain rfl : u = t := Option.some.inj (hu.symm.trans hafter)
    rw [hcu.byteIndex, Nat.mod_eq_of_lt hk]
  · obtain ⟨t, hafter, hframes, hct⟩ := ticksFollowTheClosedForm s _ hi ht hc
    exact ⟨t, hafter, cursorInitial_of_cycle hct, by simp [hframes, framesUpTo]⟩

/-- Settles O44: the first eight frames of the closed form are those of the two bytes of the start marker. -/
theorem startMarkerFrames : Obligations.StartMarkerFrames := by
  refine ⟨fun s hi ht hc => ?_, framesUpTo_eight⟩
  obtain ⟨t, hafter, hframes, -⟩ := ticksFollowTheClosedForm s 8 hi ht hc
  exact ⟨t, hafter, by rw [hframes, framesUpTo_eight]⟩

/-- Settles O34: an IDLE transmitter admits the command, and the start is its last branch. -/
theorem flkStartLoadsTheCursor : Obligations.FlkStartLoadsTheCursor := fun _ hf hu ht hm =>
  congrArg _ (hostCommand_startBody_idle ⟨hf, hu, by simp [ht]⟩ ht hm)

/-- Settles O37: `FLK_TICK` tests exactly `ticks`, and its other branch is the same state. -/
theorem tickElsewhereHasNoEffect : Obligations.TickElsewhereHasNoEffect := fun _ h => congrArg _ (if_neg h)

/-- Settles O38: the cancellation asks only whether the run has ended. -/
theorem flkCancelLatchesAndStops : Obligations.FlkCancelLatchesAndStops :=
  ⟨fun _ hr => congrArg _ (unlessFaulted_cancel_runs hr), fun _ he => congrArg _ (unlessFaulted_cancel_ended he)⟩

end Sys2Proof.Safety
end

section
/-! SUPPORT. An operand taken off `PORT` at a width of whole bytes is deliverable, so no such word is out of range (R75); what a
step does with a word under a set `FAULT` (R217) or without its complete operand (R215); what a command comes to under a set
`FAULT`, after the end of run, or where a tick is taken (R187, R188, R219). -/

namespace Sys2Proof.Machine
open Sys2Proof.Safety

/-! ### Operands at a width of whole bytes -/

/-- The length word has 16 bits, so what it announces can be delivered again (R75). -/
theorem portString_of_takeString {p s rest : List Byte} (h : takeString p = some (s, rest)) : portString s = true := by
  unfold takeString at h
  split at h
  · cases h
  · next len p' hlen =>
    obtain ⟨h2, -⟩ := eq_append_of_takeBytes hlen
    obtain ⟨hs, -⟩ := eq_append_of_takeBytes h
    have hlt := beNat_lt len
    rw [h2, ← hs] at hlt
    exact decide_eq_true hlt

theorem wf_of_takeSource {x : SrcSel} {p rest : List Byte} {src : Source} (h : takeSource x p = some (src, rest)) :
    src.wf = true := by
  cases x with
  | port =>
    simp only [takeSource, Option.map_eq_some_iff, Prod.mk.injEq] at h
    obtain ⟨⟨s, _⟩, hs, rfl, rfl⟩ := h
    exact portString_of_takeString hs
  | hhduc | bqr => cases h; rfl

theorem wfAt_of_takeFields {width : Nat} {p rest : List Byte} {i : Instr} (h : takeFields p = some (i, rest)) :
    i.wfAt width = true := by
  unfold takeFields at h
  split at h
  · cases h
  next h1 =>
  split at h
  · cases h
  next h2 =>
  split at h
  · cases h
  next h3 =>
  simp only [Option.map_eq_some_iff, Prod.mk.injEq] at h
  obtain ⟨⟨de3, _⟩, h4, rfl, rfl⟩ := h
  simp only [Instr.wfAt, portString_of_takeString h1, portString_of_takeString h2, portString_of_takeString h3,
    portString_of_takeString h4, Bool.and_self]

/-- A width of whole bytes is exactly the width of its bytes, so every integer they spell is below `2^DSUM_WIDTH` (R75). -/
theorem lt_two_pow_of_takeInteger {width n : Nat} {p rest : List Byte} (hw : 8 ∣ width)
    (h : takeInteger width p = some (n, rest)) : n < 2 ^ width := by
  simp only [takeInteger, Option.map_eq_some_iff, Prod.mk.injEq] at h
  obtain ⟨⟨a, _⟩, ha, rfl, -⟩ := h
  obtain ⟨hlen, -⟩ := eq_append_of_takeBytes ha
  have hbits : 8 * Config.dsumBytes width = width := by simp only [Config.dsumBytes]; omega
  calc beNat a < 256 ^ a.length := beNat_lt a
    _ = 2 ^ width := by rw [hlen, show (256 : Nat) = 2 ^ 8 by norm_num, ← pow_mul, hbits]

/-- At a width of whole bytes, what an operation takes off `PORT` under one of its selectors is a deliverable command. -/
theorem wfAt_of_takeOperand {width : Nat} {o : Opcode} {x : SrcSel} {p rest : List Byte} {i : Instr} (hw : 8 ∣ width)
    (hx : x ∈ o.sources) (h : takeOperand width o x p = some (i, rest)) : i.wfAt width = true := by
  cases o with
  | dsum =>
    simp only [takeOperand, Option.map_eq_some_iff, Prod.mk.injEq] at h
    obtain ⟨⟨n, _⟩, hn, rfl, -⟩ := h
    exact decide_eq_true (lt_two_pow_of_takeInteger hw hn)
  | nxor | crc16 =>
    simp only [takeOperand, Option.map_eq_some_iff, Prod.mk.injEq] at h
    obtain ⟨⟨src, _⟩, hs, rfl, -⟩ := h
    exact wf_of_takeSource hs
  | encBqr =>
    simp only [takeOperand, Option.map_eq_some_iff, Prod.mk.injEq] at h
    obtain ⟨⟨src, _⟩, hs, rfl, -⟩ := h
    obtain ⟨rfl, -⟩ := eq_framed_of_takeSource hs
    have hne : src ≠ .bqr := by rintro rfl; simp [Opcode.sources, Source.sel] at hx
    simp [Instr.wfAt, wf_of_takeSource hs, hne]
  | encHhduc => exact wfAt_of_takeFields h
  | flkStart | flkTick | flkCancel => cases h; rfl

/-- At a width of whole bytes no integer that arrives is beyond the width (R75). -/
theorem decodeAt_ne_operandRange {width : Nat} (hw : 8 ∣ width) (w : Word) (port : List Byte) :
    decodeAt width w port ≠ .operandRange := by
  unfold decodeAt
  cases hd : decodeWord w with
  | none => simp
  | some ox =>
    obtain ⟨o, x⟩ := ox
    cases ht : takeOperand width o x port with
    | none => simp [ht]
    | some r =>
      have hwf : r.1.wfAt width = true := wfAt_of_takeOperand hw (decodeWord_eq_some.1 hd).1 ht
      simp only [ht, hwf, if_true]
      split <;> simp

/-! ### One step on a word that has no effect -/

section

variable {p : Config.Params} {s : State} {w : Word} {port : List Byte} {rest : List Arrival}

/-- With `FAULT` set a word is taken off the interface and nothing else happens (R217; log 13). -/
theorem stepAt_faulted (ha : s.arrivals = .command w port :: rest) (hf : s.fault ≠ none) :
    stepAt p s = .next { s with arrivals := rest } := by
  obtain ⟨m, hm⟩ := Option.ne_none_iff_exists'.1 hf
  simp only [stepAt, ha, runArrival, runCommand, hm]

/-- A word without exactly its operand, or with an integer beyond its width, stops the machine by name (R215; log 4). -/
theorem stepAt_incomplete (ha : s.arrivals = .command w port :: rest) (hf : s.fault = none) :
    (decodeAt p.dsumWidth w port = .operandShort → stepAt p s = .fault .operandShort) ∧
    (decodeAt p.dsumWidth w port = .operandLong → stepAt p s = .fault .operandLong) ∧
    (decodeAt p.dsumWidth w port = .operandRange → stepAt p s = .fault .operandRange) := by
  simp only [stepAt, ha, runArrival, runCommand, hf]
  refine ⟨fun hd => ?_, fun hd => ?_, fun hd => ?_⟩ <;> rw [hd]

end

/-! ### Commands and events that have no effect -/

/-- Every command passes the gate of `FAULT` (R217, R219). -/
theorem exec_faulted (i : Instr) {s : State} (hf : s.fault ≠ none) : exec i s = .next s := by
  cases i with
  | dsum | nxor | crc16 | encHhduc | flkStart => exact congrArg _ (hostCommand_faulted _ hf)
  | encBqr src =>
    by_cases hsrc : src = .bqr
    · subst hsrc
      exact congrArg _ (unlessFaulted_of_some _ hf)
    · rw [exec_encBqr_of_ne hsrc, hostCommand_faulted _ hf]
  | flkTick => exact tickElsewhereHasNoEffect s fun ⟨_, _, hnone⟩ => hf hnone
  | flkCancel => exact congrArg _ (unlessFaulted_of_some _ hf)

/-- A deliverable command of the host's is a body behind the gate of R219; the reserved word of `ENC_BQR` is not one. -/
theorem exec_eq_hostCommand {i : Instr} (hwf : i.wf = true) (hi : i.issuer = .host) :
    ∃ body, ∀ s, exec i s = .next (hostCommand body s) := by
  cases i with
  | dsum | nxor | crc16 | encHhduc | flkStart => exact ⟨_, fun _ => rfl⟩
  | encBqr src =>
    have hsrc : src ≠ .bqr := by rintro rfl; simp [Instr.wf, Instr.wfAt] at hwf
    exact ⟨_, exec_encBqr_of_ne hsrc⟩
  | flkTick | flkCancel => cases hi

theorem not_ticks_of_ended {s : State} (he : s.ended = true) : ¬ ticks s := by
  rintro ⟨htx, hunit, -⟩
  simp [htx, hunit] at he

/-- The two events ask for a run that has not ended (R187, R188). -/
theorem exec_event_ended {i : Instr} {s : State} (hi : i.issuer ≠ .host) (he : s.ended = true) : exec i s = .next s := by
  cases i with
  | dsum | nxor | crc16 | encHhduc | encBqr | flkStart => exact absurd rfl hi
  | flkTick => exact tickElsewhereHasNoEffect s (not_ticks_of_ended he)
  | flkCancel => exact flkCancelLatchesAndStops.2 s he

/-- Where a tick is taken a cancellation is too, and stops the transmitter (R188). -/
theorem exec_flkCancel_of_ticks {s : State} (ht : ticks s) :
    exec .flkCancel s = .next { s with cancelPending := true, txState := .stopped } := by
  obtain ⟨htx, hunit, hf⟩ := ht
  rw [flkCancelLatchesAndStops.1 s ⟨hf, hunit, by simp [htx]⟩, if_pos htx]

end Sys2Proof.Machine
end

section
/-! PROOFS. The statements about faults, the end of a run, and simultaneous events (R214 to R220). -/

namespace Sys2Proof.Machine
open Sys2Proof.Safety

/-- Settles O7: every command passes the gate of `FAULT`, and so does a word before it is decoded. -/
theorem faultedBlockTakesNoFurtherStep : Obligations.FaultedBlockTakesNoFurtherStep :=
  ⟨fun i _ hf => exec_faulted i hf, fun _ _ _ _ ha hf => stepAt_faulted ha hf⟩

/-- Settles O10: the interface stops by the decoder's answer, which is never `operandRange` at 32 bits, a width of whole bytes. -/
theorem incompleteOperandStops : Obligations.IncompleteOperandStops := by
  refine ⟨fun s w port rest ha hf => ?_, fun p s w port rest ha hf => ?_⟩
  · obtain ⟨hshort, hlong, -⟩ := stepAt_incomplete (p := Config.chosen) ha hf
    exact ⟨hshort, hlong, decodeAt_ne_operandRange (by decide) w port⟩
  · obtain ⟨-, -, hrange⟩ := stepAt_incomplete (p := p) ha hf
    exact hrange

/-- Settles O39: a tick leaves a state in which a tick is taken, so the cancellation after it is taken too; a cancellation leaves
one in which none is. -/
theorem cancelAndTickInEitherOrder : Obligations.CancelAndTickInEitherOrder := by
  intro s hi ht
  obtain ⟨cur, hcur⟩ := hi.exists_streamByte ht.1
  have hticks : ticks (advanceCursor (emit (currentFrame cur s) s)) := by simpa [ticks] using ht
  have hstopped : ¬ ticks { s with cancelPending := true, txState := .stopped } := fun h => nomatch h.1
  exact ⟨⟨currentFrame cur s, _, _, exec_flkTick_of_ticks ht hcur, exec_flkCancel_of_ticks hticks, by simp, rfl⟩,
    ⟨_, _, exec_flkCancel_of_ticks ht, tickElsewhereHasNoEffect _ hstopped, rfl, rfl, rfl⟩⟩

/-- Settles O46: the gate of R219 refuses the host's commands, and the events ask for a run that has not ended. -/
theorem afterTheEndOfRun : Obligations.AfterTheEndOfRun := by
  intro i s hwf hf he
  split
  · next hi =>
    obtain ⟨body, hbody⟩ := exec_eq_hostCommand hwf hi
    rw [hbody, hostCommand_ended body hf he, recordRefusal]
  · next hi => exact exec_event_ended hi he

end Sys2Proof.Machine
end

section
/-! PROOFS. The reset input, and a step with nothing on the interface (R228, R240, R241). -/

namespace Sys2Proof.Machine

section

variable {p : Config.Params} {s : State}

/-- The reset input is taken under every parameter value and in every state, and leaves only the later arrivals (log 17). -/
theorem stepAt_reset {rest : List Arrival} (ha : s.arrivals = .reset :: rest) :
    stepAt p s = .next { State.reset with arrivals := rest } := by
  simp only [stepAt, ha, runArrival, resetInput]

/-- With nothing on the interface the block waits (log 3). -/
theorem stepAt_waits (ha : s.arrivals = []) : stepAt p s = .next s := by
  simp only [stepAt, ha]

end

/-- Settles O8: `step` is `stepAt` at the chosen parameters, and neither case asks about `FAULT` or the run. -/
theorem resetInputAndWaiting : Obligations.ResetInputAndWaiting :=
  ⟨fun _ _ ha => stepAt_reset ha, fun _ ha => stepAt_waits ha⟩

end Sys2Proof.Machine
end
